-- ==== Sys2Proof/Word.lean ====
section
/-! DEFINITION. The word types of the block (spec/00_scope.md R6, R7): symbols, sizes and response data are
bytes, table indices and the accumulator are 4 bits wide, command and response words 16 bits, all unsigned
with bit 0 the least significant. -/

namespace Sys2Proof

/-- A symbol, a declared size, an error payload or a response's data: 8 bits (R6 `W_SYM`, `W_SIZE`). -/
abbrev Byte := BitVec 8

/-- A table index, a map index or an accumulator value: 4 bits (R6 `W_ACC`). -/
abbrev Nibble := BitVec 4

/-- A command word or a response word: 16 bits (R6 `W_CMD`, `W_RSP`). -/
abbrev Word := BitVec 16

end Sys2Proof
end

