-- ==== Sys2Proof/Config.lean ====
section
/-! DEFINITION. The parameters of the block that this hardware fixes (spec/00_scope.md R6). The contents of the
two tables are parameters too; they stand in Machine/Tables.lean, where a repair can reach them. The spec leaves
no value open on a path that a run reaches, so there is no free value here. -/

namespace Sys2Proof

/-- R6 `UMAP_DEPTH`: the entries of the user alphabet map. -/
def Config.umapDepth : Nat := 16

/-- R6 `N_ENG`: the engine instances that share one registry; OPEN, default 1 (D20, log entry 5). -/
def Config.defaultEngines : Nat := 1

/-- R6 `REGISTERED_SIZES`: the sizes the registry holds a table for. -/
def Config.registeredSizes : List Byte := [10#8, 16#8]

end Sys2Proof
end

