-- ==== Sys2Proof/Syntax.lean ====
section
/-! DEFINITION. The command set: one constructor per row of spec/opcode_table.json (spec/30_encoding.md R42),
and the two operand types with a fixed set of values. -/

namespace Sys2Proof

/-- The alphabet selector (spec/41_alphabet.md R83): operand of `SEL`, value of `ALPHA`. -/
inductive Alphabet where
  /-- 0: decimal digits, size 10. -/
  | digit
  /-- 1: digits and `A` to `F`, size 16. -/
  | upperHex
  /-- 2: digits and `a` to `f`, size 16. -/
  | lowerHex
  /-- 3: the alphabet the host programmed, size `USIZE`. -/
  | user
  deriving DecidableEq, Repr

/-- The table id (spec/40_registry.md R61): operand of `TRD`, value of `TSEL`. -/
inductive TableId where
  /-- 0: `TABLE10`. -/
  | table10
  /-- 1: `TABLE16`. -/
  | table16
  deriving DecidableEq, Repr

/-- A command (spec/30_encoding.md R41, R42). -/
inductive Instr where
  /-- `SEL a`: select alphabet `a` and start a fold (R113). -/
  | sel (a : Alphabet)
  /-- `PUT b`: consume the symbol `b` (R114). -/
  | put (b : Byte)
  /-- `FIN`: read the final state (R115). -/
  | fin
  /-- `CHK`: read the check symbol (R116). -/
  | chk
  /-- `VAL`: read the validity flag (R117). -/
  | val
  /-- `APP`: produce the check symbol and consume it (R118). -/
  | app
  /-- `STS`: read the status registers (R119). -/
  | sts
  /-- `USZ n`: declare the size of the user alphabet (R89). -/
  | usz (n : Byte)
  /-- `UMP i, b`: set the byte of user-alphabet index `i` (R90). -/
  | ump (i : Nibble) (b : Byte)
  /-- `LKP n`: registry lookup by size (R69). -/
  | lkp (n : Byte)
  /-- `TRD t, r, c`: read one table entry (R70). -/
  | trd (t : TableId) (r c : Nibble)
  deriving DecidableEq, Repr

end Sys2Proof
end

