-- ==== Sys2Proof/Machine/State.lean ====
section
/-! DEFINITION. The state of one engine and of its ports, plain data, and the state after reset
(spec/10_state.md, spec/30_encoding.md R51, spec/70_reset_and_hazards.md R160). -/

namespace Sys2Proof.Machine

/-- `PHASE` (R13): whether a fold is open and, if it was aborted, why. All four values are legal. -/
inductive Phase where
  /-- 0: no fold is open. -/
  | idle
  /-- 1: a fold is open. -/
  | active
  /-- 2: the fold was aborted by `InvalidSymbol`. -/
  | faultSymbol
  /-- 3: the fold could not start: `UnsupportedAlphabetSize`. -/
  | faultSize
  deriving DecidableEq, Repr

/-- The space `UM` (spec/20_memory.md R32) as (address, byte) pairs, addresses strictly rising, no entry equal
to what an unlisted address reads as (`Memory.wf` in Ops.lean; log entry 6). -/
abbrev Memory := List Host.Cell

/-- The complete architectural state of one engine (R10): 153 bits. -/
structure Engine where
  /-- `PHASE`, 2 bits (R13). -/
  phase : Phase
  /-- `ALPHA`, 2 bits (R14). -/
  alpha : Alphabet
  /-- `TSEL`, 1 bit (R15). -/
  tsel : TableId
  /-- `ACC`, 4 bits (R11). -/
  acc : Nibble
  /-- `ERRINFO`, 8 bits (R16). -/
  errinfo : Byte
  /-- `USIZE`, 8 bits (R17). -/
  usize : Byte
  /-- `UMAP[0..15]`, sixteen entries of 8 bits (R18, R32). -/
  um : Memory
  deriving DecidableEq, Repr

/-- The input ports of one engine on one clock (R51). -/
structure PortIn where
  rst : Bool
  cmdValid : Bool
  cmd : Word
  deriving DecidableEq, Repr

/-- One engine and its ports. -/
structure State where
  /-- The architectural state (R10). -/
  engine : Engine
  /-- What the host drives on the coming clocks, the next clock first; empty when it drives nothing (log entry 1). -/
  inbox : List PortIn
  /-- `rsp_valid` and `rsp` (R51): the response to the command just executed, `none` when `rsp_valid` = 0 (log entry 2). -/
  rsp : Option Word
  /-- The responses given so far, oldest first: the observable part of a run (R171, log entry 2). -/
  trace : List Word
  deriving DecidableEq, Repr

/-- Why the machine stops. Neither reason is raised in a state that a run reaches (R22, R68): both stand for
states of an engine that was never reset, about which the spec says nothing (R161, U1; log entries 4 and 9). -/
inductive Fault where
  /-- `PUT` or `APP` would read `TAB` outside the selected table (R31, R68). Safe: the model stops. -/
  | tabAddress
  /-- `CHK` or `APP` would need `to_symbol` of an index outside 0..size-1 (R80, R85 to R88). Safe: the model stops. -/
  | symbolIndex
  deriving DecidableEq, Repr

/-- Why an instruction has no meaning. -/
inductive Refusal where
  /-- Raised by `exec` for an instruction without a meaning; no arm does. Safe. -/
  | notModelled (mnemonic : String)
  deriving DecidableEq, Repr

/-- The reset values of the table of R23. -/
def Engine.reset : Engine where
  phase := .idle
  alpha := .digit
  tsel := .table10
  acc := 0
  errinfo := 0
  usize := 0
  um := []

/-- The machine right after reset (R23, R160): no response is shown, the host has presented nothing yet. -/
def State.reset : State where
  engine := Engine.reset
  inbox := []
  rsp := none
  trace := []

end Sys2Proof.Machine
end

