-- ==== Sys2Proof/WellFormed.lean ====
section
/-! DEFINITION. The one check on a command that its fields' types do not make already: the coordinates of a
`TRD` lie inside the table (spec/30_encoding.md R43 c). -/

namespace Sys2Proof

/-- The number of rows, and of columns, of a table (spec/10_state.md R20). -/
def tableSize : TableId → Nat
  | .table10 => 10
  | .table16 => 16

/-- The legal commands (R43): every operand value is legal, but for a `TRD` outside its table. -/
def Instr.wellFormed : Instr → Bool
  | .sel _ => true
  | .put _ => true
  | .fin => true
  | .chk => true
  | .val => true
  | .app => true
  | .sts => true
  | .usz _ => true
  | .ump _ _ => true
  | .lkp _ => true
  | .trd t r c => decide (r.toNat < tableSize t) && decide (c.toNat < tableSize t)

end Sys2Proof
end

