-- ==== Sys2Proof/Decode.lean ====
section
/-! DEFINITION. The command decoder, total on all 65536 words, and the encoder
(spec/30_encoding.md R40 to R45). -/

namespace Sys2Proof

/-! ## Field codes -/

/-- The 2-bit code of an alphabet (spec/41_alphabet.md R83). -/
def Alphabet.code : Alphabet → BitVec 2
  | .digit => 0#2
  | .upperHex => 1#2
  | .lowerHex => 2#2
  | .user => 3#2

/-- The alphabet a 2-bit selector names (R83). -/
def Alphabet.ofCode (c : BitVec 2) : Alphabet :=
  if c = 0#2 then .digit
  else if c = 1#2 then .upperHex
  else if c = 2#2 then .lowerHex
  else .user

/-- The 1-bit code of a table (spec/10_state.md R15). -/
def TableId.code : TableId → BitVec 1
  | .table10 => 0#1
  | .table16 => 1#1

/-- The table a 1-bit id names (R15). -/
def TableId.ofCode (c : BitVec 1) : TableId :=
  if c = 0#1 then .table10 else .table16

/-! ## Decoding -/

/-- Why a word is illegal (R43): the three cases of that rule. All of them are answered alike. -/
inductive DecodeError where
  /-- R43 (a): `op` is 0x0, 0xC, 0xD, 0xE or 0xF. -/
  | reservedOpcode
  /-- R43 (b): a bit that R41 marks mbz is 1. -/
  | mustBeZero
  /-- R43 (c): `TRD` of table 0 with a row or a column of 10 or more. -/
  | outsideTable
  deriving DecidableEq, Repr

/-- `op` = `cmd[15:12]` (R40). -/
def opField (w : Word) : BitVec 4 := w.extractLsb' 12 4

/-- The legality check of a command whose mbz bits are known to be zero or not. -/
def checkMbz {n : Nat} (mbz : BitVec n) (i : Instr) : Except DecodeError Instr :=
  if mbz = 0 then .ok i else .error .mustBeZero

/-- The decoding procedure (R45): total, rejecting by name. -/
def decode (w : Word) : Except DecodeError Instr :=
  if opField w = 0x1#4 then checkMbz (w.extractLsb' 2 10) (.sel (.ofCode (w.extractLsb' 0 2)))
  else if opField w = 0x2#4 then checkMbz (w.extractLsb' 8 4) (.put (w.extractLsb' 0 8))
  else if opField w = 0x3#4 then checkMbz (w.extractLsb' 0 12) .fin
  else if opField w = 0x4#4 then checkMbz (w.extractLsb' 0 12) .chk
  else if opField w = 0x5#4 then checkMbz (w.extractLsb' 0 12) .val
  else if opField w = 0x6#4 then checkMbz (w.extractLsb' 0 12) .app
  else if opField w = 0x7#4 then checkMbz (w.extractLsb' 0 12) .sts
  else if opField w = 0x8#4 then checkMbz (w.extractLsb' 8 4) (.usz (w.extractLsb' 0 8))
  else if opField w = 0x9#4 then .ok (.ump (w.extractLsb' 8 4) (w.extractLsb' 0 8))
  else if opField w = 0xA#4 then checkMbz (w.extractLsb' 8 4) (.lkp (w.extractLsb' 0 8))
  else if opField w = 0xB#4 then
    if w.extractLsb' 9 3 = 0#3 then
      let i := Instr.trd (.ofCode (w.extractLsb' 8 1)) (w.extractLsb' 4 4) (w.extractLsb' 0 4)
      if i.wellFormed then .ok i else .error .outsideTable
    else .error .mustBeZero
  else .error .reservedOpcode

/-! ## Encoding -/

/-- The word of a command (R45), written as the concatenation of its fields, `op` first. -/
def encode : Instr → Word
  | .sel a => 0x1#4 ++ 0#10 ++ a.code
  | .put b => 0x2#4 ++ 0#4 ++ b
  | .fin => 0x3#4 ++ 0#12
  | .chk => 0x4#4 ++ 0#12
  | .val => 0x5#4 ++ 0#12
  | .app => 0x6#4 ++ 0#12
  | .sts => 0x7#4 ++ 0#12
  | .usz n => 0x8#4 ++ 0#4 ++ n
  | .ump i b => 0x9#4 ++ i ++ b
  | .lkp n => 0xA#4 ++ 0#4 ++ n
  | .trd t r c => 0xB#4 ++ 0#3 ++ t.code ++ r ++ c

/-! ## The opcode map as rows -/

/-- A row of the opcode map (R42): a word `w` is an instance of the row when `w &&& mask = pattern`. -/
structure OpcodeRow where
  mnemonic : String
  pattern : Word
  mask : Word
  deriving DecidableEq, Repr

/-- The row of a command in the opcode map (R42, spec/opcode_table.json). -/
def Instr.row : Instr → OpcodeRow
  | .sel _ => ⟨"SEL", 0x1000#16, 0xFFFC#16⟩
  | .put _ => ⟨"PUT", 0x2000#16, 0xFF00#16⟩
  | .fin => ⟨"FIN", 0x3000#16, 0xFFFF#16⟩
  | .chk => ⟨"CHK", 0x4000#16, 0xFFFF#16⟩
  | .val => ⟨"VAL", 0x5000#16, 0xFFFF#16⟩
  | .app => ⟨"APP", 0x6000#16, 0xFFFF#16⟩
  | .sts => ⟨"STS", 0x7000#16, 0xFFFF#16⟩
  | .usz _ => ⟨"USZ", 0x8000#16, 0xFF00#16⟩
  | .ump _ _ => ⟨"UMP", 0x9000#16, 0xF000#16⟩
  | .lkp _ => ⟨"LKP", 0xA000#16, 0xFF00#16⟩
  | .trd _ _ _ => ⟨"TRD", 0xB000#16, 0xFE00#16⟩

/-- The eleven rows of the opcode map, in opcode order (R42). -/
def opcodeRows : List OpcodeRow :=
  [Instr.row (.sel .digit), Instr.row (.put 0), Instr.row .fin, Instr.row .chk, Instr.row .val, Instr.row .app,
   Instr.row .sts, Instr.row (.usz 0), Instr.row (.ump 0 0), Instr.row (.lkp 0), Instr.row (.trd .table10 0 0)]

/-- Whether a word is an instance of a row (R42). -/
def OpcodeRow.matches (row : OpcodeRow) (w : Word) : Bool := w &&& row.mask == row.pattern

/-! ## The host's reading of a table word -/

/-- The command the decoder reads from the first `nbits` bits of `w`; the bits of a command word above `nbits`
are zero. A command is one 16-bit word (R40), so nothing is read from a longer one. -/
def decodeTableWord (nbits w : Nat) : Option Instr :=
  if nbits ≤ 16 then
    match decode (BitVec.ofNat 16 (w % 2 ^ nbits)) with
    | .ok i => some i
    | .error _ => none
  else none

end Sys2Proof
end

