-- ==== Sys2Proof/Machine/Tables.lean ====
section
/-! DEFINITION. The registry: the contents of the two tables (space `TAB`, spec/20_memory.md R31) and the lookup
of a size (spec/40_registry.md R60, R66 to R68). The contents are the defaults of the two OPEN parameters
(D12, D13, log entry 3). -/

namespace Sys2Proof.Machine

/-- A table as a function of state and index (R7: row, then column); meant for coordinates below the size it is
registered for. -/
abbrev Table := Nibble → Nibble → Nibble

/-- The contents of the registry, the parameters `TABLE10` and `TABLE16` of the step function (R6, R24, R65). -/
abbrev Tables := TableId → Table

/-- `TABLE10` (R66), row = current state, column = next symbol's index. -/
def table10Rows : List (List Nibble) :=
  [[0, 3, 1, 7, 5, 9, 8, 6, 4, 2],
   [7, 0, 9, 2, 1, 5, 4, 8, 6, 3],
   [4, 2, 0, 6, 8, 7, 1, 3, 5, 9],
   [1, 7, 5, 0, 9, 8, 3, 4, 2, 6],
   [6, 1, 2, 3, 0, 4, 5, 9, 7, 8],
   [3, 6, 7, 4, 2, 0, 9, 5, 8, 1],
   [5, 8, 6, 9, 7, 2, 0, 1, 3, 4],
   [8, 9, 4, 5, 3, 6, 2, 0, 1, 7],
   [9, 4, 3, 8, 6, 1, 7, 2, 0, 5],
   [2, 5, 8, 1, 4, 3, 6, 7, 9, 0]]

/-- `dbl` (R67): doubling in 4 bits with the reduction constant 0x3. -/
def dbl (v : Nibble) : Nibble := (v <<< 1) ^^^ (if v.getLsbD 3 then 0x3#4 else 0x0#4)

/-- The entry `T_t[r][c]` (R66, R67). Outside a table of size 10 this is a filler that `tabRead` never lets out. -/
def tableEntry : TableId → Nibble → Nibble → Nibble
  | .table10, r, c => (table10Rows.getD r.toNat []).getD c.toNat 0
  | .table16, r, c => dbl (r ^^^ c)

/-- The tables of the hardware (R66, R67). -/
def hardwareTables : Tables := tableEntry

/-- `MemRead(TAB[t][r][c], 4)` (R31, R68), over the tables `T`: defined for coordinates inside the table only. -/
def tabRead (T : Tables) (t : TableId) (r c : Nibble) : Option Nibble :=
  if r.toNat < tableSize t ∧ c.toNat < tableSize t then some (T t r c) else none

/-- `lookup(n)` (R60): the table of exactly this size, or `none` for `UnsupportedAlphabetSize`. -/
def lookup (n : Byte) : Option TableId :=
  if n = 10#8 then some .table10
  else if n = 16#8 then some .table16
  else none

end Sys2Proof.Machine
end

