-- ==== Sys2Proof/Machine/Ops.lean ====
section
/-! DEFINITION. The named operations over memory, registers, ports and responses that every meaning is built
from, the error entry among them (spec/00_scope.md R7, R8; spec/20_memory.md; spec/60_exceptions.md). -/

namespace Sys2Proof.Machine

/-! ## The space UM (R32) -/

/-- What an unlisted address reads as: the reset contents of `UMAP` (R23, log entry 6). -/
def Memory.unlisted : Byte := 0x00#8

/-- One byte of memory. -/
def Memory.read : Memory → Nat → Byte
  | [], _ => Memory.unlisted
  | (k, v) :: rest, a => if k = a then v else Memory.read rest a

/-- The list without an entry if `v` is what an unlisted address reads as, with the entry otherwise. -/
def Memory.cons (a : Nat) (v : Byte) (rest : Memory) : Memory :=
  if v = Memory.unlisted then rest else (a, v) :: rest

/-- Store one byte, keeping the canonical form. -/
def Memory.write : Memory → Nat → Byte → Memory
  | [], a, v => Memory.cons a v []
  | (k, x) :: rest, a, v =>
    if a < k then Memory.cons a v ((k, x) :: rest)
    else if a = k then Memory.cons a v rest
    else (k, x) :: Memory.write rest a v

/-- The canonical form from address `lo` on: addresses rise, lie in `UM`, and no entry is redundant. -/
def Memory.wfFrom (lo : Nat) : Memory → Bool
  | [] => true
  | (k, v) :: rest =>
    decide (lo ≤ k) && decide (k < Config.umapDepth) && decide (v ≠ Memory.unlisted) && Memory.wfFrom (k + 1) rest

/-- The canonical form of the space `UM`: equal contents are equal lists. -/
def Memory.wf (m : Memory) : Bool := Memory.wfFrom 0 m

/-- `MemRead(UM[i], 8)` (R32). -/
def umRead (m : Memory) (i : Nibble) : Byte := Memory.read m i.toNat

/-- `MemWrite(UM[i], 8, v)` (R32). -/
def umWrite (m : Memory) (i : Nibble) (v : Byte) : Memory := Memory.write m i.toNat v

/-! ## Responses (R46 to R48) -/

/-- The status of a response (R47). -/
inductive Status where
  /-- 0: the command did what it is defined to do. -/
  | ok
  /-- 1: the source's `InvalidSymbol`. -/
  | invalidSymbol
  /-- 2: the source's `UnsupportedAlphabetSize`. -/
  | unsupportedSize
  /-- 3: a fold command while no fold is open (R144). -/
  | noFold
  /-- 4: an illegal command word (R43, R144). -/
  | illegalCmd
  deriving DecidableEq, Repr

/-- The status code (R47). -/
def Status.code : Status → BitVec 4
  | .ok => 0#4
  | .invalidSymbol => 1#4
  | .unsupportedSize => 2#4
  | .noFold => 3#4
  | .illegalCmd => 4#4

/-- `respond(s, a, d)` (R46): status, aux, data from the top bit down. -/
def respond (st : Status) (aux : Nibble) (data : Byte) : Word := st.code ++ aux ++ data

/-- The 2-bit code of a phase (R13). -/
def Phase.code : Phase → BitVec 2
  | .idle => 0#2
  | .active => 1#2
  | .faultSymbol => 2#2
  | .faultSize => 3#2

/-- `aux` naming an alphabet (R47): `{0b00, a}`. -/
def alphaAux (a : Alphabet) : Nibble := 0#2 ++ a.code

/-- `aux` naming a table (R48): `{0b000, t}`. -/
def tableAux (t : TableId) : Nibble := 0#3 ++ t.code

/-- `aux` of the status read (R21): `{PHASE, ALPHA}`. -/
def stsAux (p : Phase) (a : Alphabet) : Nibble := p.code ++ a.code

/-- A 4-bit value in the data field (R36): `zext_8(v)`. -/
def zext8 (v : Nibble) : Byte := v.setWidth 8

/-- Complete a command: the engine becomes `e`, and its one response `r` (R46) is shown and recorded. -/
def State.answer (s : State) (e : Engine) (r : Word) : State :=
  { s with engine := e, rsp := some r, trace := s.trace ++ [r] }

/-! ## State changes of the engine -/

/-- `close_fold()` (R111). -/
def Engine.closeFold (e : Engine) : Engine :=
  { e with phase := .idle, acc := 0, tsel := .table10, errinfo := 0x00#8 }

/-- What a `SEL` that finds its table leaves (R113). -/
def Engine.openFold (e : Engine) (a : Alphabet) (t : TableId) : Engine :=
  { e with alpha := a, acc := 0, tsel := t, errinfo := 0x00#8, phase := .active }

/-- What `PUT` and `APP` leave in the accumulator (R114, R118). -/
def Engine.setAcc (e : Engine) (v : Nibble) : Engine := { e with acc := v }

/-- What `USZ` leaves in `USIZE` (R89). -/
def Engine.setUsize (e : Engine) (n : Byte) : Engine := { e with usize := n }

/-- What `UMP` leaves in `UMAP` (R90). -/
def Engine.setUm (e : Engine) (i : Nibble) (b : Byte) : Engine := { e with um := umWrite e.um i b }

/-! ## Error entry and sticky errors (spec/60_exceptions.md) -/

/-- The source's two error kinds (R140). -/
inductive ErrorKind where
  /-- `InvalidSymbol{byte, alphabet_description}`. -/
  | invalidSymbol
  /-- `UnsupportedAlphabetSize{size}`. -/
  | unsupportedSize
  deriving DecidableEq, Repr

/-- The phase that records an error (R142, R143). -/
def ErrorKind.phase : ErrorKind → Phase
  | .invalidSymbol => .faultSymbol
  | .unsupportedSize => .faultSize

/-- The status that reports an error (R141). -/
def ErrorKind.status : ErrorKind → Status
  | .invalidSymbol => .invalidSymbol
  | .unsupportedSize => .unsupportedSize

/-- The registers after an error entry (R142, R143): the fold's `ACC` and `TSEL` are cleared, the payload, the
cause and the alphabet are recorded; nothing else changes (R147). -/
def Engine.recordError (e : Engine) (k : ErrorKind) (a : Alphabet) (info : Byte) : Engine :=
  { e with alpha := a, acc := 0, tsel := .table10, errinfo := info, phase := k.phase }

/-- The response that reports an error of alphabet `a` with payload `info` (R142, R143, R145). -/
def errorResponse (k : ErrorKind) (a : Alphabet) (info : Byte) : Word :=
  respond k.status (alphaAux a) info

/-- Error entry, the one shared operation of the two kinds (R142, R143). -/
def State.raiseError (s : State) (k : ErrorKind) (a : Alphabet) (info : Byte) : State :=
  s.answer (s.engine.recordError k a info) (errorResponse k a info)

/-- `raise InvalidSymbol(b)` (R142): `ALPHA` keeps its value. -/
def State.raiseInvalidSymbol (s : State) (b : Byte) : State :=
  s.raiseError .invalidSymbol s.engine.alpha b

/-- `raise UnsupportedAlphabetSize(n)` by `SEL a` (R143). -/
def State.raiseUnsupportedSize (s : State) (a : Alphabet) (n : Byte) : State :=
  s.raiseError .unsupportedSize a n

/-- `sticky()` for a recorded error of kind `k` (R145). -/
def sticky (k : ErrorKind) (e : Engine) : Word := errorResponse k e.alpha e.errinfo

/-- The answer to a fold command while no fold is open (R112, R144). -/
def State.answerNoFold (s : State) : State := s.answer s.engine (respond .noFold 0 0x00#8)

/-- The repetition of a recorded error (R112, R145). -/
def State.answerSticky (s : State) (k : ErrorKind) : State := s.answer s.engine (sticky k s.engine)

/-- The answer to an illegal command word (R43): 0x4000, and no state change. -/
def State.answerIllegal (s : State) : State := s.answer s.engine (respond .illegalCmd 0 0x00#8)

/-- The five fold commands, which pass through the phase gate (R112). -/
def isFoldCommand : Instr → Bool
  | .put _ => true
  | .fin => true
  | .chk => true
  | .val => true
  | .app => true
  | .sel _ => false
  | .sts => false
  | .usz _ => false
  | .ump _ _ => false
  | .lkp _ => false
  | .trd _ _ _ => false

/-- The phase gate of the five fold commands (R112): `body` is the command's own rule, for an open fold. -/
def foldGate (s : State) (body : Host.Outcome State Fault Refusal) : Host.Outcome State Fault Refusal :=
  match s.engine.phase with
  | .idle => .next s.answerNoFold
  | .faultSymbol => .next (s.answerSticky .invalidSymbol)
  | .faultSize => .next (s.answerSticky .unsupportedSize)
  | .active => body

/-! ## Clocks (R51, R160) -/

/-- The host presents the command word `w` (R51). -/
def PortIn.command (w : Word) : PortIn := { rst := false, cmdValid := true, cmd := w }

/-- A clock on which the host presents no command and no reset (R51). -/
def State.idleClock (s : State) : State := { s with rsp := none }

/-- The event `Reset` (R160): every element of the engine at its reset value, and no response. -/
def State.takeReset (s : State) : State := { s with engine := Engine.reset, rsp := none }

end Sys2Proof.Machine
end

