-- ==== Sys2Proof/Machine/Operands.lean ====
section
/-! DEFINITION. The operands of a fold: the four alphabets as the engine sees them
(spec/41_alphabet.md R80 to R88). -/

namespace Sys2Proof.Machine

/-- `size(a)` (R81). -/
def alphabetSize (e : Engine) : Alphabet → Byte
  | .digit => 10#8
  | .upperHex => 16#8
  | .lowerHex => 16#8
  | .user => e.usize

/-- The index of a decimal digit's byte (R85, and the first range of R86 and R87). -/
def digitIndex (b : Byte) : Option Nibble :=
  if 0x30#8 ≤ b ∧ b ≤ 0x39#8 then some ((b - 0x30#8).setWidth 4) else none

/-- The index of a letter's byte, `base` being the byte of the letter of index 10 (R86, R87). -/
def letterIndex (base b : Byte) : Option Nibble :=
  if base ≤ b ∧ b ≤ base + 5#8 then some ((b - base + 10#8).setWidth 4) else none

/-- The byte of an index in a hexadecimal alphabet whose letter of index 10 is `base` (R86, R87). -/
def hexByte (base : Byte) (i : Nibble) : Byte :=
  if i ≤ 9#4 then 0x30#8 + zext8 i else base + (zext8 i - 10#8)

/-- The map indices in rising order (R32). -/
def mapIndices : List Nibble := [0, 1, 2, 3, 4, 5, 6, 7, 8, 9, 10, 11, 12, 13, 14, 15]

/-- Whether index `i` of the user alphabet holds the byte `b` (R88): below `USIZE` and equal. -/
def userMatches (e : Engine) (b : Byte) (i : Nibble) : Bool :=
  decide (i.toNat < e.usize.toNat) && (umRead e.um i == b)

/-- `from_symbol(3, b)` (R88): the least matching index. -/
def userIndex (e : Engine) (b : Byte) : Option Nibble := mapIndices.find? (userMatches e b)

/-- `from_symbol(a, b)` (R85 to R88): `none` for `InvalidSymbol`. -/
def fromSymbol (e : Engine) (a : Alphabet) (b : Byte) : Option Nibble :=
  match a with
  | .digit => digitIndex b
  | .upperHex => (digitIndex b).or (letterIndex 0x41#8 b)
  | .lowerHex => (digitIndex b).or (letterIndex 0x61#8 b)
  | .user => userIndex e b

/-- The formula of `to_symbol(a, i)` (R85 to R88). What it gives for an index outside 0..size-1 is not the
spec's: `toSymbol` never lets it out (log entry 8). -/
def symbolByte (e : Engine) (a : Alphabet) (i : Nibble) : Byte :=
  match a with
  | .digit => 0x30#8 + zext8 i
  | .upperHex => hexByte 0x41#8 i
  | .lowerHex => hexByte 0x61#8 i
  | .user => umRead e.um i

/-- `to_symbol(a, i)` (R85 to R88): total on 0..size-1, undefined elsewhere. -/
def toSymbol (e : Engine) (a : Alphabet) (i : Nibble) : Option Byte :=
  if i.toNat < (alphabetSize e a).toNat then some (symbolByte e a i) else none

/-- A user alphabet that the host has made well formed (R91): `UMAP[0..USIZE-1]` pairwise distinct. For `USIZE` = 17 to 255
the entries from 16 on do not exist, and that the sixteen that do decide is the model's choice (DESIGN CHOICE, log
entry 14). -/
def UserAlphabetWellFormed (e : Engine) : Prop :=
  ∀ i j : Nibble, i.toNat < e.usize.toNat → j.toNat < e.usize.toNat → umRead e.um i = umRead e.um j → i = j

end Sys2Proof.Machine
end

