-- ==== Sys2Proof/Machine/Flags.lean ====
section
/-! DEFINITION. The one condition of the block, the validity flag (spec/10_state.md R19). It is not stored. -/

namespace Sys2Proof.Machine

/-- The validity predicate (R19): zero means valid. -/
def validFlag (acc : Nibble) : Bool := acc == 0

/-- The validity flag as the response's data byte (R117). -/
def validByte (acc : Nibble) : Byte := if validFlag acc then 0x01#8 else 0x00#8

end Sys2Proof.Machine
end

