-- ==== Sys2Proof/Machine/Fold.lean ====
section
/-! DEFINITION. The seven commands of the fold engine (spec/42_fold_engine.md R113 to R119). -/

namespace Sys2Proof.Machine

/-- `SEL a` (R113): resolve the table of the alphabet's size and start a fold, or record an unsupported size. -/
def execSel (a : Alphabet) (s : State) : Host.Outcome State Fault Refusal :=
  let n := alphabetSize s.engine a
  match lookup n with
  | some t => .next (s.answer (s.engine.openFold a t) (respond .ok (tableAux t) n))
  | none => .next (s.raiseUnsupportedSize a n)

/-- `PUT b` (R114) over the tables `T`: one iteration of the fold, or the `InvalidSymbol` entry. -/
def execPutOn (T : Tables) (b : Byte) (s : State) : Host.Outcome State Fault Refusal :=
  foldGate s
    (match fromSymbol s.engine s.engine.alpha b with
    | none => .next (s.raiseInvalidSymbol b)
    | some x =>
      match tabRead T s.engine.tsel s.engine.acc x with
      | none => .fault .tabAddress
      | some v => .next (s.answer (s.engine.setAcc v) (respond .ok 0 0x00#8)))

/-- `PUT b` over the tables of the hardware. -/
def execPut (b : Byte) (s : State) : Host.Outcome State Fault Refusal := execPutOn hardwareTables b s

/-- `FIN` (R115): the final state of the fold so far. -/
def execFin (s : State) : Host.Outcome State Fault Refusal :=
  foldGate s (.next (s.answer s.engine (respond .ok 0 (zext8 s.engine.acc))))

/-- `CHK` (R116): the check symbol of the symbols consumed so far. -/
def execChk (s : State) : Host.Outcome State Fault Refusal :=
  foldGate s
    (match toSymbol s.engine s.engine.alpha s.engine.acc with
    | none => .fault .symbolIndex
    | some c => .next (s.answer s.engine (respond .ok 0 c)))

/-- `VAL` (R117): the validity flag of the symbols consumed so far. -/
def execVal (s : State) : Host.Outcome State Fault Refusal :=
  foldGate s (.next (s.answer s.engine (respond .ok 0 (validByte s.engine.acc))))

/-- `APP` (R118) over the tables `T`: the check symbol, computed before the update, and the fold advanced by its index. -/
def execAppOn (T : Tables) (s : State) : Host.Outcome State Fault Refusal :=
  foldGate s
    (match toSymbol s.engine s.engine.alpha s.engine.acc with
    | none => .fault .symbolIndex
    | some c =>
      match tabRead T s.engine.tsel s.engine.acc s.engine.acc with
      | none => .fault .tabAddress
      | some v => .next (s.answer (s.engine.setAcc v) (respond .ok 0 c)))

/-- `APP` over the tables of the hardware. -/
def execApp (s : State) : Host.Outcome State Fault Refusal := execAppOn hardwareTables s

/-- `STS` (R119, R21): the status registers, in every phase. -/
def execSts (s : State) : Host.Outcome State Fault Refusal :=
  .next (s.answer s.engine (respond .ok (stsAux s.engine.phase s.engine.alpha) s.engine.errinfo))

end Sys2Proof.Machine
end

