-- ==== Sys2Proof/Machine/Registry.lean ====
section
/-! DEFINITION. The two commands that query the registry (spec/40_registry.md R69, R70). They change nothing. -/

namespace Sys2Proof.Machine

/-- `LKP n` (R69): the lookup as a host-visible query; an unsupported size is reported and not recorded. -/
def execLkp (n : Byte) (s : State) : Host.Outcome State Fault Refusal :=
  match lookup n with
  | some t => .next (s.answer s.engine (respond .ok (tableAux t) n))
  | none => .next (s.answer s.engine (respond .unsupportedSize 0 n))

/-- `TRD t, r, c` (R70) over the tables `T`: one table entry; outside the table the command is illegal. -/
def execTrdOn (T : Tables) (t : TableId) (r c : Nibble) (s : State) : Host.Outcome State Fault Refusal :=
  match tabRead T t r c with
  | some v => .next (s.answer s.engine (respond .ok 0 (zext8 v)))
  | none => .next s.answerIllegal

/-- `TRD t, r, c` over the tables of the hardware. -/
def execTrd (t : TableId) (r c : Nibble) (s : State) : Host.Outcome State Fault Refusal := execTrdOn hardwareTables t r c s

end Sys2Proof.Machine
end

