-- ==== Sys2Proof/Machine/UserAlphabet.lean ====
section
/-! DEFINITION. The two commands that program the user alphabet (spec/41_alphabet.md R89, R90). -/

namespace Sys2Proof.Machine

/-- `USZ n` (R89): declare the size, without looking it up, and close the fold. -/
def execUsz (n : Byte) (s : State) : Host.Outcome State Fault Refusal :=
  .next (s.answer (s.engine.setUsize n).closeFold (respond .ok 0 0x00#8))

/-- `UMP i, b` (R90): set one entry of the map and close the fold. -/
def execUmp (i : Nibble) (b : Byte) (s : State) : Host.Outcome State Fault Refusal :=
  .next (s.answer (s.engine.setUm i b).closeFold (respond .ok 0 0x00#8))

end Sys2Proof.Machine
end

