-- ==== Sys2Proof/Machine/Dispatch.lean ====
section
/-! DEFINITION. One arm per command: `execute(state, i)` of spec/30_encoding.md R45. -/

namespace Sys2Proof.Machine

def exec (i : Instr) (s : State) : Host.Outcome State Fault Refusal :=
  match i with
  | .sel a => Sys2Proof.Machine.execSel a s
  | .put b => Sys2Proof.Machine.execPut b s
  | .fin => Sys2Proof.Machine.execFin s
  | .chk => Sys2Proof.Machine.execChk s
  | .val => Sys2Proof.Machine.execVal s
  | .app => Sys2Proof.Machine.execApp s
  | .sts => Sys2Proof.Machine.execSts s
  | .usz n => Sys2Proof.Machine.execUsz n s
  | .ump x b => Sys2Proof.Machine.execUmp x b s
  | .lkp n => Sys2Proof.Machine.execLkp n s
  | .trd t r c => Sys2Proof.Machine.execTrd t r c s

end Sys2Proof.Machine
end

