-- ==== Sys2Proof/Machine/Clock.lean ====
section
/-! DEFINITION. What one clock does with its inputs (spec/30_encoding.md R45, R51; spec/70_reset_and_hazards.md R160), for
any rule `ex` of executing a command, and for the hardware's own. -/

namespace Sys2Proof.Machine

/-- `execute(state, decode(w))` (R45): an illegal word is answered without effect. -/
def runCommandBy (ex : Instr → State → Host.Outcome State Fault Refusal) (w : Word) (s : State) :
    Host.Outcome State Fault Refusal :=
  match decode w with
  | .ok i => ex i s
  | .error _ => .next s.answerIllegal

/-- One clock with the inputs `p` (R51): a reset wins, then a presented command is executed, else nothing happens. -/
def clockBy (ex : Instr → State → Host.Outcome State Fault Refusal) (p : PortIn) (s : State) :
    Host.Outcome State Fault Refusal :=
  if p.rst then .next s.takeReset
  else if p.cmdValid then runCommandBy ex p.cmd s
  else .next s.idleClock

/-- One step takes the next clock's inputs; when the host drives nothing the engine holds its state (R154, R171). -/
def stepBy (ex : Instr → State → Host.Outcome State Fault Refusal) (s : State) : Host.Outcome State Fault Refusal :=
  match s.inbox with
  | [] => .next s.idleClock
  | p :: rest => clockBy ex p { s with inbox := rest }

/-- The word that the host's numbering of `nbits` bits stands for, the bits above them zero. -/
def wordOfBits (nbits w : Nat) : Word := BitVec.ofNat 16 (w % 2 ^ nbits)

end Sys2Proof.Machine
end

