-- ==== Sys2Proof/Machine/Step.lean ====
section
/-! DEFINITION. One step is one clock of the engine (spec/30_encoding.md R45, R51; spec/70_reset_and_hazards.md R170). -/

namespace Sys2Proof.Machine

/-- One clock, with the commands of the hardware (`stepBy` in Clock.lean). -/
def step (s : State) : Host.Outcome State Fault Refusal := stepBy exec s

/-- The host presents the first `nbits` bits of `w` as the very next command (log entry 10). -/
def State.withFetchWord (s : State) (nbits w : Nat) : State :=
  { s with inbox := PortIn.command (wordOfBits nbits w) :: s.inbox }

end Sys2Proof.Machine
end

