-- ==== Sys2Proof/Machine/Pure.lean ====
section
/-! DEFINITION. The source's operations as pure functions, the reference every command is held to
(spec/42_fold_engine.md R100 to R103), the invariants a table and an alphabet must meet for the source's
properties (spec/40_registry.md R62 to R64, spec/41_alphabet.md R82), and the responses that R128 gives to the
commands of one call. -/

namespace Sys2Proof.Machine

/-- The capability set of an alphabet (R80). `toSymbol` is meant for indices below `size` only; no claim depends
on what it gives elsewhere (log entry 8). -/
structure AlphabetFns where
  size : Byte
  toSymbol : Nibble → Byte
  fromSymbol : Byte → Option Nibble

/-- The source's two errors with their payloads (R100, R140). An alphabet is a capability set, so errors are compared by
proof and not by evaluation. -/
inductive FoldError where
  /-- `InvalidSymbol{byte, alphabet}`: the byte, and the alphabet that does not have it. -/
  | invalidSymbol (byte : Byte) (alphabet : AlphabetFns)
  /-- `UnsupportedAlphabetSize{size}`. -/
  | unsupportedAlphabetSize (size : Byte)

/-- The loop of `fold` (R100) from the accumulator `acc` on. -/
def foldFrom (T : Table) (A : AlphabetFns) : Nibble → List Byte → Except FoldError Nibble
  | acc, [] => .ok acc
  | acc, b :: rest =>
    match A.fromSymbol b with
    | none => .error (.invalidSymbol b A)
    | some x => foldFrom T A (T acc x) rest

/-- `fold(A, s)` (R100), over the tables `tables` (R65: a model may take them as parameters). -/
def fold (tables : Tables) (A : AlphabetFns) (s : List Byte) : Except FoldError Nibble :=
  match lookup A.size with
  | none => .error (.unsupportedAlphabetSize A.size)
  | some t => foldFrom (tables t) A 0 s

/-- `check_symbol(A, s)` (R101). -/
def checkSymbol (tables : Tables) (A : AlphabetFns) (s : List Byte) : Except FoldError Byte :=
  match fold tables A s with
  | .error e => .error e
  | .ok k => .ok (A.toSymbol k)

/-- `is_valid(A, s)` (R102). -/
def isValid (tables : Tables) (A : AlphabetFns) (s : List Byte) : Except FoldError Bool :=
  match fold tables A s with
  | .error e => .error e
  | .ok k => .ok (validFlag k)

/-- `append_check_symbol(A, s)` (R103). -/
def appendCheckSymbol (tables : Tables) (A : AlphabetFns) (s : List Byte) : Except FoldError (List Byte) :=
  match checkSymbol tables A s with
  | .error e => .error e
  | .ok c => .ok (s ++ [c])

/-- The four alphabets of the hardware as capability sets (R83), the user alphabet as the registers stand. -/
def alphabetFns (e : Engine) (a : Alphabet) : AlphabetFns where
  size := alphabetSize e a
  toSymbol := symbolByte e a
  fromSymbol := fromSymbol e a

/-! ## The invariants of tables and alphabets -/

/-- The Latin-square invariant (R62) for a table of size `n`: entries below `n`, rows and columns permutations. -/
structure IsLatin (n : Nat) (T : Table) : Prop where
  closed : ∀ r c : Nibble, r.toNat < n → c.toNat < n → (T r c).toNat < n
  row : ∀ r v : Nibble, r.toNat < n → v.toNat < n → ∃ c : Nibble, c.toNat < n ∧ T r c = v ∧
    ∀ d : Nibble, d.toNat < n → T r d = v → d = c
  col : ∀ c v : Nibble, c.toNat < n → v.toNat < n → ∃ r : Nibble, r.toNat < n ∧ T r c = v ∧
    ∀ d : Nibble, d.toNat < n → T d c = v → d = r

/-- The zero-diagonal invariant (R63). -/
def ZeroDiagonal (n : Nat) (T : Table) : Prop :=
  ∀ r c : Nibble, r.toNat < n → c.toNat < n → (T r c = 0 ↔ r = c)

/-- The transposition invariant, weak total anti-symmetry (R64). -/
def WeaklyTotallyAntiSymmetric (n : Nat) (T : Table) : Prop :=
  ∀ c x y : Nibble, c.toNat < n → x.toNat < n → y.toNat < n → x ≠ y → T (T c x) y ≠ T (T c y) x

/-- A table that the source's properties may rest on (R65): R62, R63 and R64 together. -/
structure IsDamm (n : Nat) (T : Table) : Prop where
  latin : IsLatin n T
  zeroDiagonal : ZeroDiagonal n T
  antiSymmetric : WeaklyTotallyAntiSymmetric n T

/-- The round-trip invariant of an alphabet (R82), over the 4-bit indices. For a size of 17 to 255 the indices from 16 on do
not exist, and that the law then asks for the sixteen that do is the model's choice (DESIGN CHOICE, log entry 14). -/
structure RoundTrip (A : AlphabetFns) : Prop where
  ofIndex : ∀ i : Nibble, i.toNat < A.size.toNat → A.fromSymbol (A.toSymbol i) = some i
  ofByte : ∀ (b : Byte) (i : Nibble), A.fromSymbol b = some i → i.toNat < A.size.toNat ∧ A.toSymbol i = b

/-! ## The responses of one call (R128) -/

/-- The commands that read a fold (R128's `X`). -/
inductive ReadCommand where
  | fin
  | chk
  | val
  | app
  deriving DecidableEq, Repr

/-- The command of that name. -/
def ReadCommand.instr : ReadCommand → Instr
  | .fin => .fin
  | .chk => .chk
  | .val => .val
  | .app => .app

/-- The data that `X` returns for a fold that ended in the state `k` (R128, first row). -/
def ReadCommand.data (A : AlphabetFns) (k : Nibble) : ReadCommand → Byte
  | .fin => zext8 k
  | .chk => A.toSymbol k
  | .val => validByte k
  | .app => A.toSymbol k

/-- The response to `X` after the fold `r` over the alphabet of selector `a` (R128's table): `a` stands in the response for
the alphabet that the error names. -/
def foldResponse (A : AlphabetFns) (a : Alphabet) (x : ReadCommand) (r : Except FoldError Nibble) : Word :=
  match r with
  | .ok k => respond .ok 0 (x.data A k)
  | .error (.invalidSymbol b _) => respond .invalidSymbol (alphaAux a) b
  | .error (.unsupportedAlphabetSize n) => respond .unsupportedSize (alphaAux a) n

/-- The responses to the `PUT`s of an open fold (R128): 0x0000 before the first invalid byte, its error from there on. -/
def putResponses (A : AlphabetFns) (a : Alphabet) : List Byte → List Word
  | [] => []
  | b :: rest =>
    match A.fromSymbol b with
    | some _ => respond .ok 0 0x00#8 :: putResponses A a rest
    | none => List.replicate (rest.length + 1) (respond .invalidSymbol (alphaAux a) b)

/-- The responses to `SEL a` and the `PUT`s of `s` (R128). -/
def streamResponses (A : AlphabetFns) (a : Alphabet) (s : List Byte) : List Word :=
  match lookup A.size with
  | none => List.replicate (s.length + 1) (respond .unsupportedSize (alphaAux a) A.size)
  | some t => respond .ok (tableAux t) A.size :: putResponses A a s

end Sys2Proof.Machine
end

