-- ==== Sys2Proof/Machine/Pseudo.lean ====
section
/-! DEFINITION. The pseudo-commands (spec/30_encoding.md R50): fixed sequences of commands, notation only. -/

namespace Sys2Proof.Machine

/-- `PUTS s`. -/
def pseudoPuts (s : List Byte) : List Instr := s.map Instr.put

/-- `SEL a; PUTS s; X`, the shape of `FOLD`, `CHECK`, `VALID` and `APPEND`. -/
def pseudoCall (a : Alphabet) (s : List Byte) (x : ReadCommand) : List Instr :=
  .sel a :: pseudoPuts s ++ [x.instr]

/-- `FOLD a, s`. -/
def pseudoFold (a : Alphabet) (s : List Byte) : List Instr := pseudoCall a s .fin

/-- `CHECK a, s`. -/
def pseudoCheck (a : Alphabet) (s : List Byte) : List Instr := pseudoCall a s .chk

/-- `VALID a, s`. -/
def pseudoValid (a : Alphabet) (s : List Byte) : List Instr := pseudoCall a s .val

/-- `APPEND a, s`. -/
def pseudoAppend (a : Alphabet) (s : List Byte) : List Instr := pseudoCall a s .app

/-- `UMP k, c` for each byte `c` of the list, `k` counting from `first`. -/
def pseudoMap (first : Nat) : List Byte → List Instr
  | [] => []
  | c :: rest => .ump (BitVec.ofNat 4 first) c :: pseudoMap (first + 1) rest

/-- `UALPHA cs`, for at most sixteen bytes. -/
def pseudoUserAlphabet (cs : List Byte) : List Instr :=
  .usz (BitVec.ofNat 8 cs.length) :: pseudoMap 0 cs

/-- The clocks on which the host presents these commands one after the other. -/
def present (is : List Instr) : List PortIn := is.map (fun i => PortIn.command (encode i))

end Sys2Proof.Machine
end

