-- ==== Sys2Proof/Machine/Asm.lean ====
section
/-! DEFINITION. The assembler syntax (spec/30_encoding.md R49) and the pseudo-commands as written (R50): one line of
text to the commands it stands for. What the two rules leave open of the text is in log entry 11. -/

namespace Sys2Proof.Machine

/-- An operand as written (R49, R50): a number (`0xHH` or decimal), a character in single quotes, an alphabet's name,
or the double-quoted text of a pseudo-command. -/
inductive AsmOperand where
  | number (n : Nat)
  | char (c : Char)
  | alphabet (a : Alphabet)
  | text (cs : List Char)
  deriving DecidableEq, Repr

/-! ## Operands to commands -/

/-- A character stands for its byte value (R7, R84); only ASCII has one there. -/
def charByte (c : Char) : Option Byte := if c.toNat < 128 then some (BitVec.ofNat 8 c.toNat) else none

/-- A number that an operand stands for (R49). -/
def AsmOperand.value : AsmOperand → Option Nat
  | .number n => some n
  | .char c => (charByte c).map BitVec.toNat
  | .alphabet _ => none
  | .text _ => none

/-- An operand as an unsigned field of `k` bits (R44): a value that does not fit is refused. -/
def AsmOperand.field (k : Nat) (o : AsmOperand) : Option (BitVec k) :=
  match o.value with
  | some n => if n < 2 ^ k then some (BitVec.ofNat k n) else none
  | none => none

/-- The alphabet operand of `SEL` (R49): one of the four names or a number 0..3. -/
def AsmOperand.selector : AsmOperand → Option Alphabet
  | .alphabet a => some a
  | .number n => if n < 4 then some (.ofCode (BitVec.ofNat 2 n)) else none
  | .char _ => none
  | .text _ => none

/-- The bytes of a pseudo-command's text (R50). -/
def AsmOperand.bytes : AsmOperand → Option (List Byte)
  | .text cs => cs.mapM charByte
  | .number _ => none
  | .char _ => none
  | .alphabet _ => none

/-- The legal command, or nothing. -/
def keepLegal (i : Instr) : Option Instr := if i.wellFormed then some i else none

/-- One command from its mnemonic and its operands (R49). -/
def assemble (mnemonic : String) (ops : List AsmOperand) : Option Instr :=
  match ops with
  | [] =>
    if mnemonic = "FIN" then some .fin
    else if mnemonic = "CHK" then some .chk
    else if mnemonic = "VAL" then some .val
    else if mnemonic = "APP" then some .app
    else if mnemonic = "STS" then some .sts
    else none
  | [x] =>
    if mnemonic = "SEL" then x.selector.map Instr.sel
    else if mnemonic = "PUT" then (x.field 8).map Instr.put
    else if mnemonic = "USZ" then (x.field 8).map Instr.usz
    else if mnemonic = "LKP" then (x.field 8).map Instr.lkp
    else none
  | [x, y] =>
    if mnemonic = "UMP" then (x.field 4).bind (fun i => (y.field 8).map (Instr.ump i)) else none
  | [x, y, z] =>
    if mnemonic = "TRD" then
      (x.field 1).bind (fun t => (y.field 4).bind (fun r => (z.field 4).bind (fun c =>
        keepLegal (.trd (.ofCode t) r c))))
    else none
  | _ => none

/-- The expansion of a pseudo-command (R50); `UALPHA` takes at most sixteen characters, the entries of the map. -/
def assemblePseudo (mnemonic : String) (ops : List AsmOperand) : Option (List Instr) :=
  match ops with
  | [x] =>
    if mnemonic = "PUTS" then x.bytes.map pseudoPuts
    else if mnemonic = "UALPHA" then
      x.bytes.bind (fun cs => if cs.length ≤ Config.umapDepth then some (pseudoUserAlphabet cs) else none)
    else none
  | [x, y] =>
    x.selector.bind (fun a => y.bytes.bind (fun s =>
      if mnemonic = "FOLD" then some (pseudoFold a s)
      else if mnemonic = "CHECK" then some (pseudoCheck a s)
      else if mnemonic = "VALID" then some (pseudoValid a s)
      else if mnemonic = "APPEND" then some (pseudoAppend a s)
      else none))
  | _ => none

/-! ## Text to operands -/

/-- The single quote. -/
def singleQuote : Char := Char.ofNat 39

/-- The double quote. -/
def doubleQuote : Char := Char.ofNat 34

/-- Where in a line the scan stands: outside quotes, in a text, or before or after the character of a quoted one. -/
inductive Quoting where
  | outside
  | inText
  | beforeChar
  | afterChar
  deriving DecidableEq, Repr

/-- The scan's next place after the character `c`. -/
def Quoting.next (q : Quoting) (c : Char) : Quoting :=
  match q with
  | .outside => if c = doubleQuote then .inText else if c = singleQuote then .beforeChar else .outside
  | .inText => if c = doubleQuote then .outside else .inText
  | .beforeChar => .afterChar
  | .afterChar => .outside

/-- A line with a mark on each character that stands outside quotes. -/
def markOutside : Quoting → List Char → List (Char × Bool)
  | _, [] => []
  | q, c :: rest => (c, q == .outside) :: markOutside (q.next c) rest

/-- A line without its comment (R49: a `;` starts one). -/
def dropComment (line : List Char) : List Char :=
  ((markOutside .outside line).takeWhile (fun p => !(p.2 && p.1 == ';'))).map Prod.fst

/-- Cut at the commas outside quotes (R49). -/
def cutMarked : List (Char × Bool) → List (List Char)
  | [] => [[]]
  | (c, o) :: rest =>
    if o && c == ',' then [] :: cutMarked rest
    else match cutMarked rest with
      | [] => [[c]]
      | first :: others => (c :: first) :: others

/-- Whether a character is a blank. -/
def isBlank (c : Char) : Bool := c == ' ' || c == '\t'

/-- A text without blanks at either end. -/
def trimBlanks (cs : List Char) : List Char := ((cs.dropWhile isBlank).reverse.dropWhile isBlank).reverse

/-- The value of a digit in base 10 or, when `hex`, in base 16 (either case). -/
def digitValue (hex : Bool) (c : Char) : Option Nat :=
  if 48 ≤ c.toNat ∧ c.toNat ≤ 57 then some (c.toNat - 48)
  else if hex ∧ 65 ≤ c.toNat ∧ c.toNat ≤ 70 then some (c.toNat - 55)
  else if hex ∧ 97 ≤ c.toNat ∧ c.toNat ≤ 102 then some (c.toNat - 87)
  else none

/-- A number from its digits, most significant first. -/
def numberFrom (hex : Bool) : Nat → List Char → Option Nat
  | n, [] => some n
  | n, c :: rest => (digitValue hex c).bind (fun d => numberFrom hex (n * (if hex then 16 else 10) + d) rest)

/-- The alphabet of a name (R49, R83). -/
def alphabetName (cs : List Char) : Option Alphabet :=
  if cs = ['D', 'I', 'G', 'I', 'T'] then some .digit
  else if cs = ['U', 'P', 'P', 'E', 'R', 'H', 'E', 'X'] then some .upperHex
  else if cs = ['L', 'O', 'W', 'E', 'R', 'H', 'E', 'X'] then some .lowerHex
  else if cs = ['U', 'S', 'E', 'R'] then some .user
  else none

/-- A number as written (R49): `0xHH` or decimal, at least one digit. -/
def parseNumber : List Char → Option Nat
  | [] => none
  | ['0', 'x'] => none
  | '0' :: 'x' :: h :: hs => numberFrom true 0 (h :: hs)
  | d :: ds => numberFrom false 0 (d :: ds)

/-- What stands between the double quotes of a text. -/
def parseText : List Char → Option (List Char)
  | [] => none
  | [c] => if c = doubleQuote then some [] else none
  | c :: d :: rest => if c = doubleQuote then none else (parseText (d :: rest)).map (c :: ·)

/-- One operand (R49, R50). -/
def parseOperand (cs : List Char) : Option AsmOperand :=
  match alphabetName cs with
  | some a => some (.alphabet a)
  | none =>
    match cs with
    | [] => none
    | q :: rest =>
      if q = singleQuote then
        match rest with
        | [c, q'] => if q' = singleQuote then some (.char c) else none
        | _ => none
      else if q = doubleQuote then (parseText rest).map AsmOperand.text
      else (parseNumber (q :: rest)).map AsmOperand.number

/-- The operands of a line: nothing, or operands between commas. -/
def parseOperands (cs : List Char) : Option (List AsmOperand) :=
  if cs = [] then some []
  else (cutMarked (markOutside .outside cs)).mapM (fun o => parseOperand (trimBlanks o))

/-- The mnemonics, of commands (R42) and of pseudo-commands (R50), as they are written in upper case. -/
def mnemonicNames : List (List Char × String) :=
  [(['S', 'E', 'L'], "SEL"), (['P', 'U', 'T'], "PUT"), (['F', 'I', 'N'], "FIN"), (['C', 'H', 'K'], "CHK"),
   (['V', 'A', 'L'], "VAL"), (['A', 'P', 'P'], "APP"), (['S', 'T', 'S'], "STS"), (['U', 'S', 'Z'], "USZ"),
   (['U', 'M', 'P'], "UMP"), (['L', 'K', 'P'], "LKP"), (['T', 'R', 'D'], "TRD"), (['P', 'U', 'T', 'S'], "PUTS"),
   (['F', 'O', 'L', 'D'], "FOLD"), (['C', 'H', 'E', 'C', 'K'], "CHECK"), (['V', 'A', 'L', 'I', 'D'], "VALID"),
   (['A', 'P', 'P', 'E', 'N', 'D'], "APPEND"), (['U', 'A', 'L', 'P', 'H', 'A'], "UALPHA")]

/-- The commands that one line stands for: none for an empty line or a comment, `none` for a line that is no command. -/
def assembleLine (line : List Char) : Option (List Instr) :=
  let l := trimBlanks (dropComment line)
  if l = [] then some []
  else
    let word := l.takeWhile (fun c => !isBlank c)
    match mnemonicNames.lookup word, parseOperands (trimBlanks (l.drop word.length)) with
    | some m, some ops =>
      match assemble m ops with
      | some i => some [i]
      | none => assemblePseudo m ops
    | _, _ => none

/-- A program text, line by line. -/
def assembleLines : List (List Char) → Option (List Instr)
  | [] => some []
  | l :: rest => (assembleLine l).bind (fun is => (assembleLines rest).map (is ++ ·))

/-! ## Commands to text -/

/-- The hexadecimal digit of a 4-bit value. -/
def hexDigit (v : Nibble) : Char := Char.ofNat (if v.toNat < 10 then 48 + v.toNat else 55 + v.toNat)

/-- A byte operand `0xHH` (R49). -/
def renderByte (b : Byte) : List Char :=
  ['0', 'x', hexDigit (b.extractLsb' 4 4), hexDigit (b.extractLsb' 0 4)]

/-- A 4-bit or smaller operand, as `0x0H`. -/
def renderNibble (v : Nibble) : List Char := renderByte (zext8 v)

/-- The name of an alphabet (R49). -/
def renderAlphabet : Alphabet → List Char
  | .digit => ['D', 'I', 'G', 'I', 'T']
  | .upperHex => ['U', 'P', 'P', 'E', 'R', 'H', 'E', 'X']
  | .lowerHex => ['L', 'O', 'W', 'E', 'R', 'H', 'E', 'X']
  | .user => ['U', 'S', 'E', 'R']

/-- A command as a line of text (R49). -/
def renderLine : Instr → List Char
  | .sel a => ['S', 'E', 'L', ' '] ++ renderAlphabet a
  | .put b => ['P', 'U', 'T', ' '] ++ renderByte b
  | .fin => ['F', 'I', 'N']
  | .chk => ['C', 'H', 'K']
  | .val => ['V', 'A', 'L']
  | .app => ['A', 'P', 'P']
  | .sts => ['S', 'T', 'S']
  | .usz n => ['U', 'S', 'Z', ' '] ++ renderByte n
  | .ump i b => ['U', 'M', 'P', ' '] ++ renderNibble i ++ [',', ' '] ++ renderByte b
  | .lkp n => ['L', 'K', 'P', ' '] ++ renderByte n
  | .trd t r c => ['T', 'R', 'D', ' '] ++ renderNibble (t.code.setWidth 4) ++ [',', ' '] ++ renderNibble r ++ [',', ' '] ++ renderNibble c

/-- The operands of a command. -/
def asmOperands : Instr → List AsmOperand
  | .sel a => [.alphabet a]
  | .put b => [.number b.toNat]
  | .fin => []
  | .chk => []
  | .val => []
  | .app => []
  | .sts => []
  | .usz n => [.number n.toNat]
  | .ump i b => [.number i.toNat, .number b.toNat]
  | .lkp n => [.number n.toNat]
  | .trd t r c => [.number t.code.toNat, .number r.toNat, .number c.toNat]

end Sys2Proof.Machine
end

