-- ==== Sys2Proof/Machine/Block.lean ====
section
/-! DEFINITION. The block with the tables as its parameter (spec/00_scope.md R6, spec/10_state.md R24,
spec/40_registry.md R65; the OPEN decisions D12 and D13): the same commands and the same clock over any two tables. The
hardware's machine (`exec`, `step`, `core`) is the instance at the default tables (log entry 3). -/

namespace Sys2Proof.Machine

/-- The commands over the tables `T`; only `PUT`, `APP` and `TRD` read them (R31). -/
def execOn (T : Tables) (i : Instr) (s : State) : Host.Outcome State Fault Refusal :=
  match i with
  | .sel a => execSel a s
  | .put b => execPutOn T b s
  | .fin => execFin s
  | .chk => execChk s
  | .val => execVal s
  | .app => execAppOn T s
  | .sts => execSts s
  | .usz n => execUsz n s
  | .ump x b => execUmp x b s
  | .lkp n => execLkp n s
  | .trd t r c => execTrdOn T t r c s

/-- One clock over the tables `T`. -/
def stepOn (T : Tables) (s : State) : Host.Outcome State Fault Refusal := stepBy (execOn T) s

/-- The block over the tables `T`, as a machine. -/
def coreOn (T : Tables) : Host.Core where
  State := State
  Fault := Fault
  Refusal := Refusal
  step := stepOn T
  reset := State.reset

end Sys2Proof.Machine
end

