-- ==== Sys2Proof/Machine/System.lean ====
section
/-! DEFINITION. Several engines on one registry (spec/60_exceptions.md R152, spec/20_memory.md R37): each has its
own state and ports; they share only the constant tables. -/

namespace Sys2Proof.Machine

/-- `N_ENG` engines (R152); the count is a parameter (D20, log entry 5). -/
abbrev System (n : Nat) := Vector State n

/-- Every engine right after its reset. -/
def System.reset (n : Nat) : System n := Vector.replicate n State.reset

/-- One clock of engine `k`; the others do nothing meanwhile. -/
def System.stepEngine {n : Nat} (σ : System n) (k : Fin n) : Host.Outcome (System n) Fault Refusal :=
  match step σ[k] with
  | .next s => .next (σ.set k s)
  | .fault f => .fault f
  | .refused r => .refused r

/-- The system as the spec's default has it: one engine (R6). -/
def System.default : System Config.defaultEngines := System.reset Config.defaultEngines

end Sys2Proof.Machine
end

