-- ==== Sys2Proof/Safety.lean ====
section
/-! DEFINITION. What counts as a safe run: the invariants of spec/10_state.md R22, the states a run reaches
(spec/70_reset_and_hazards.md R171), and what a fold command does while no fold is open. -/

namespace Sys2Proof.Machine

/-- The invariants of R22, by their numbers there. -/
structure Engine.Inv (e : Engine) : Prop where
  /-- R22 item 1. -/
  closed : e.phase ≠ .active → e.acc = 0 ∧ e.tsel = .table10
  /-- R22 item 2. -/
  noError : e.phase = .idle ∨ e.phase = .active → e.errinfo = 0x00#8
  /-- R22 item 3. -/
  openFold : e.phase = .active →
    (alphabetSize e e.alpha = 10#8 ∧ e.tsel = .table10 ∨ alphabetSize e e.alpha = 16#8 ∧ e.tsel = .table16) ∧
    e.acc.toNat < (alphabetSize e e.alpha).toNat
  /-- R22 item 4. -/
  sizeFault : e.phase = .faultSize → e.alpha = .user ∧ e.errinfo = e.usize ∧ e.usize ∉ Config.registeredSizes
  /-- R22 item 5. -/
  symbolFault : e.phase = .faultSymbol → fromSymbol e e.alpha e.errinfo = none

/-- The invariant of a state is that of its engine; the ports may hold anything. -/
def State.Inv (s : State) : Prop := s.engine.Inv

/-- The states of the runs of R171: from reset, the host drives any inputs on any clocks. -/
inductive Reachable : State → Prop where
  | reset : Reachable State.reset
  | drive (s : State) (p : PortIn) : Reachable s → Reachable { s with inbox := s.inbox ++ [p] }
  | step (s t : State) : Reachable s → Machine.step s = .next t → Reachable t

/-- What the phase gate (R112) makes of the command `i` while no fold is open: the protocol status (R144) in IDLE, the
repetition of the recorded error (R145) in a fault phase, and no change in either. -/
def AnswersWhileClosed (i : Instr) : Prop :=
  ∀ s : State,
    (s.engine.phase = .idle → exec i s = .next (s.answer s.engine 0x3000#16)) ∧
    (s.engine.phase = .faultSymbol → exec i s = .next (s.answer s.engine
      (respond .invalidSymbol (0#2 ++ s.engine.alpha.code) s.engine.errinfo))) ∧
    (s.engine.phase = .faultSize → exec i s = .next (s.answer s.engine
      (respond .unsupportedSize (0#2 ++ s.engine.alpha.code) s.engine.errinfo)))

end Sys2Proof.Machine
end

