-- ==== Sys2Proof/Certificates/Slice0/Obligations.lean ====
section
/-! DEFINITION. The statements about the model, for the provers. `s.answer e r` is the state in which the engine is
`e`, the response port shows `r`, `r` is added to the trace and the inputs are as before: an equality
`exec i s = .next (s.answer e r)` says all that the command does and, with it, all that it leaves alone. -/

open Sys2Proof Sys2Proof.Machine

/-! ## Reset, clocks and fetch -/

/-- R23: every element of the engine after reset. -/
def Obligations.ResetValues : Prop :=
  State.reset.engine.phase = .idle ∧ State.reset.engine.alpha = .digit ∧ State.reset.engine.tsel = .table10 ∧
  State.reset.engine.acc = 0 ∧ State.reset.engine.errinfo = 0x00#8 ∧ State.reset.engine.usize = 0 ∧
  (∀ i : Nibble, umRead State.reset.engine.um i = 0x00#8) ∧
  Phase.idle.code = 0 ∧ Alphabet.digit.code = 0 ∧ TableId.table10.code = 0

/-- R160 and R51: a clock with `rst` = 1 puts the engine into the reset state, whatever else the host drives; a
command presented on that clock is not executed, and there is no response. -/
def Obligations.ResetEventRestoresResetState : Prop :=
  ∀ (s : State) (p : PortIn) (rest : List PortIn), s.inbox = p :: rest → p.rst = true →
    step s = .next { s with engine := State.reset.engine, inbox := rest, rsp := none }

/-- R51, R154, R171: a clock without reset and command changes nothing but that no response is shown, and an engine to
which the host presents nothing holds its state. -/
def Obligations.IdleClockHoldsState : Prop :=
  (∀ (s : State) (p : PortIn) (rest : List PortIn), s.inbox = p :: rest → p.rst = false → p.cmdValid = false →
    step s = .next { s with inbox := rest, rsp := none }) ∧
  (∀ s : State, s.inbox = [] → step s = .next { s with rsp := none })

/-- R45, `step(state, w) = execute(state, decode(w))`: a presented word that decodes to `i` is run as `i`, in the
state whose inputs are the clocks after it; nothing else is added around `exec`. -/
def Obligations.StepRunsDecodedCommand : Prop :=
  ∀ (s : State) (p : PortIn) (rest : List PortIn) (i : Instr), s.inbox = p :: rest → p.rst = false →
    p.cmdValid = true → decode p.cmd = .ok i → step s = exec i { s with inbox := rest }

/-! ## Encoding -/

/-- A few words written out from R41 and R42, and what they decode to. -/
def Obligations.SpecWordsDecode : Prop :=
  decode 0x1003#16 = .ok (.sel .user) ∧ decode 0x2035#16 = .ok (.put 0x35#8) ∧ decode 0x3000#16 = .ok .fin ∧
  decode 0x4000#16 = .ok .chk ∧ decode 0x5000#16 = .ok .val ∧ decode 0x6000#16 = .ok .app ∧
  decode 0x7000#16 = .ok .sts ∧ decode 0x80FF#16 = .ok (.usz 255#8) ∧ decode 0x9A61#16 = .ok (.ump 10#4 0x61#8) ∧
  decode 0xA010#16 = .ok (.lkp 16#8) ∧ decode 0xB1F1#16 = .ok (.trd .table16 15#4 1#4)

/-- R45: the words that the rule writes for the legal commands. -/
def Obligations.EncodingFormulas : Prop :=
  (∀ a : Alphabet, encode (.sel a) = 0x1000#16 ||| a.code.setWidth 16) ∧
  (∀ b : Byte, encode (.put b) = 0x2000#16 ||| b.setWidth 16) ∧
  encode .fin = 0x3000#16 ∧ encode .chk = 0x4000#16 ∧ encode .val = 0x5000#16 ∧ encode .app = 0x6000#16 ∧
  encode .sts = 0x7000#16 ∧
  (∀ n : Byte, encode (.usz n) = 0x8000#16 ||| n.setWidth 16) ∧
  (∀ (i : Nibble) (b : Byte), encode (.ump i b) = 0x9000#16 ||| (i.setWidth 16 <<< 8) ||| b.setWidth 16) ∧
  (∀ n : Byte, encode (.lkp n) = 0xA000#16 ||| n.setWidth 16) ∧
  (∀ (t : TableId) (r c : Nibble), encode (.trd t r c) =
    0xB000#16 ||| (t.code.setWidth 16 <<< 8) ||| (r.setWidth 16 <<< 4) ||| c.setWidth 16)

/-- R45: encoding is the inverse of decoding on legal commands; every operand at every value. -/
def Obligations.DecodeOfEncode : Prop :=
  ∀ i : Instr, i.wellFormed = true → decode (encode i) = .ok i

/-- R45, the other direction: a word has at most one reading, that reading is legal, and it encodes back to the word. -/
def Obligations.EncodeOfDecode : Prop :=
  ∀ (w : Word) (i : Instr), decode w = .ok i → i.wellFormed = true ∧ encode i = w

/-- R42: no word is an instance of two rows; a word decodes to a command of the row it is an instance of; a word of no
row is illegal; and but for the value check of `TRD`, a word of a row is legal. -/
def Obligations.OpcodeRowsClassifyWords : Prop :=
  ∀ w : Word,
    opcodeRows.Pairwise (fun a b => ¬ (a.matches w = true ∧ b.matches w = true)) ∧
    (∀ i : Instr, decode w = .ok i → i.row ∈ opcodeRows ∧ i.row.matches w = true) ∧
    ((∀ row ∈ opcodeRows, row.matches w = false) → ∃ e, decode w = .error e) ∧
    (∀ row ∈ opcodeRows, row.matches w = true → row.mnemonic ≠ "TRD" → ∃ i, decode w = .ok i ∧ i.row = row)

/-- R43: which words are illegal, and that an illegal word, presented in any phase, is answered 0x4000 and changes no
state. -/
def Obligations.IllegalWordsExactly : Prop :=
  (∀ w : Word, (∃ e, decode w = .error e) ↔
    (opField w ∈ [0x0#4, 0xC#4, 0xD#4, 0xE#4, 0xF#4] ∨
     (opField w = 0x1#4 ∧ w.extractLsb' 2 10 ≠ 0) ∨
     (opField w ∈ [0x2#4, 0x8#4, 0xA#4] ∧ w.extractLsb' 8 4 ≠ 0) ∨
     (opField w ∈ [0x3#4, 0x4#4, 0x5#4, 0x6#4, 0x7#4] ∧ w.extractLsb' 0 12 ≠ 0) ∨
     (opField w = 0xB#4 ∧ w.extractLsb' 9 3 ≠ 0) ∨
     (opField w = 0xB#4 ∧ w.extractLsb' 8 1 = 0 ∧ (10#4 ≤ w.extractLsb' 4 4 ∨ 10#4 ≤ w.extractLsb' 0 4)))) ∧
  (∀ (s : State) (p : PortIn) (rest : List PortIn) (e : DecodeError), s.inbox = p :: rest → p.rst = false →
    p.cmdValid = true → decode p.cmd = .error e →
    step s = .next { s with inbox := rest, rsp := some 0x4000#16, trace := s.trace ++ [0x4000#16] })

/-- R49: a legal command written as a line of text assembles to itself; the assembler gives back every legal command
from its mnemonic and its operands; the four examples of the rule; a character and an alphabet's number stand for
their values. What R49 leaves open of the text is the model's choice (log entry 11). -/
def Obligations.AssemblerReadsCommands : Prop :=
  (∀ i : Instr, i.wellFormed = true → assembleLine (renderLine i) = some [i]) ∧
  (∀ i : Instr, i.wellFormed = true → assemble i.row.mnemonic (asmOperands i) = some i) ∧
  assembleLine ['P', 'U', 'T', ' ', singleQuote, '5', singleQuote] = some [.put 0x35#8] ∧
  assembleLine ['S', 'E', 'L', ' ', 'U', 'P', 'P', 'E', 'R', 'H', 'E', 'X'] = some [.sel .upperHex] ∧
  assembleLine ['U', 'M', 'P', ' ', '1', '0', ',', ' ', singleQuote, 'a', singleQuote] = some [.ump 10#4 0x61#8] ∧
  assembleLine ['T', 'R', 'D', ' ', '1', ',', ' ', '1', '5', ',', ' ', '1'] = some [.trd .table16 15#4 1#4] ∧
  (∀ c : Char, c.toNat < 128 → assemble "PUT" [.char c] = some (.put (BitVec.ofNat 8 c.toNat))) ∧
  (∀ a : Alphabet, assemble "SEL" [.number a.code.toNat] = some (.sel a))

/-! ## Responses -/

/-- R46: every presented word, legal or not, produces exactly one response; `respond` lays its three fields out as the
table says. -/
def Obligations.EveryCommandAnswersOnce : Prop :=
  (∀ (s t : State) (p : PortIn) (rest : List PortIn), s.inbox = p :: rest → p.rst = false → p.cmdValid = true →
    step s = .next t → ∃ r : Word, t.rsp = some r ∧ t.trace = s.trace ++ [r] ∧ t.inbox = rest) ∧
  (∀ (st : Status) (a : Nibble) (d : Byte),
    (respond st a d).extractLsb' 12 4 = st.code ∧ (respond st a d).extractLsb' 8 4 = a ∧
    (respond st a d).extractLsb' 0 8 = d)

/-- R47: the status of a response is one of the five codes; codes 5 to 15 are never produced. -/
def Obligations.StatusCodesAreTheFive : Prop :=
  ∀ (s t : State) (r : Word), step s = .next t → t.rsp = some r → r.extractLsb' 12 4 ≤ 4#4

/-- R146 and R48: the response to any presented word. The checks stand in the order of R146 (legality, no fold, recorded
error, the command's own check); the payloads of successful commands are those of the table of R48. -/
def Obligations.ResponsesFollowCheckOrder : Prop :=
  ∀ (s t : State) (p : PortIn) (rest : List PortIn), s.Inv → s.inbox = p :: rest → p.rst = false → p.cmdValid = true →
    step s = .next t →
    t.rsp = some (match decode p.cmd with
      | .error _ => 0x4000#16
      | .ok i =>
        if isFoldCommand i = true ∧ s.engine.phase = .idle then 0x3000#16
        else if isFoldCommand i = true ∧ s.engine.phase = .faultSymbol then
          respond .invalidSymbol (0#2 ++ s.engine.alpha.code) s.engine.errinfo
        else if isFoldCommand i = true ∧ s.engine.phase = .faultSize then
          respond .unsupportedSize (0#2 ++ s.engine.alpha.code) s.engine.errinfo
        else match i with
          | .sel a =>
            match lookup (alphabetSize s.engine a) with
            | some x => respond .ok (0#3 ++ x.code) (alphabetSize s.engine a)
            | none => respond .unsupportedSize (0#2 ++ a.code) (alphabetSize s.engine a)
          | .put b =>
            match fromSymbol s.engine s.engine.alpha b with
            | some _ => respond .ok 0 0x00#8
            | none => respond .invalidSymbol (0#2 ++ s.engine.alpha.code) b
          | .fin => respond .ok 0 (s.engine.acc.setWidth 8)
          | .chk => respond .ok 0 (symbolByte s.engine s.engine.alpha s.engine.acc)
          | .val => respond .ok 0 (if s.engine.acc = 0 then 0x01#8 else 0x00#8)
          | .app => respond .ok 0 (symbolByte s.engine s.engine.alpha s.engine.acc)
          | .sts => respond .ok (s.engine.phase.code ++ s.engine.alpha.code) s.engine.errinfo
          | .usz _ => respond .ok 0 0x00#8
          | .ump _ _ => respond .ok 0 0x00#8
          | .lkp n =>
            match lookup n with
            | some x => respond .ok (0#3 ++ x.code) n
            | none => respond .unsupportedSize 0 n
          | .trd x r c => respond .ok 0 ((tableEntry x r c).setWidth 8))

/-! ## The registry -/

/-- R60: exact match only. -/
def Obligations.LookupMatchesExactly : Prop :=
  lookup 10#8 = some .table10 ∧ lookup 16#8 = some .table16 ∧
  ∀ n : Byte, n ≠ 10#8 → n ≠ 16#8 → lookup n = none

/-- R66 and R67: both tables hold their row strings, digit `c` of string `r` being the entry at row `r` and column `c`;
and `TABLE16` is the list of `dbl` that R67 gives, at the exclusive or of row and column. -/
def Obligations.TablesHoldRowStrings : Prop :=
  (∀ r c : Nibble, r.toNat < 10 → c.toNat < 10 → tabRead hardwareTables .table10 r c =
    some ((([0x0317598642#40, 0x7092154863#40, 0x4206871359#40, 0x1750983426#40, 0x6123045978#40, 0x3674209581#40,
      0x5869720134#40, 0x8945362017#40, 0x9438617205#40, 0x2581436790#40] : List (BitVec 40)).getD r.toNat 0).extractLsb'
        (4 * (9 - c.toNat)) 4)) ∧
  (∀ r c : Nibble, tabRead hardwareTables .table16 r c =
    some ((([0x02468ACE3175B9FD#64, 0x2064A8EC13579BDF#64, 0x4602CE8A7531FDB9#64, 0x6420ECA85713DF9B#64,
      0x8ACE0246B9FD3175#64, 0xA8EC20649BDF1357#64, 0xCE8A4602FDB97531#64, 0xECA86420DF9B5713#64,
      0x3175B9FD02468ACE#64, 0x13579BDF2064A8EC#64, 0x7531FDB94602CE8A#64, 0x5713DF9B6420ECA8#64,
      0xB9FD31758ACE0246#64, 0x9BDF1357A8EC2064#64, 0xFDB97531CE8A4602#64, 0xDF9B5713ECA86420#64] :
        List (BitVec 64)).getD r.toNat 0).extractLsb' (4 * (15 - c.toNat)) 4)) ∧
  (∀ r c : Nibble, tabRead hardwareTables .table16 r c =
    some (([0, 2, 4, 6, 8, 10, 12, 14, 3, 1, 7, 5, 11, 9, 15, 13] : List Nibble).getD (r ^^^ c).toNat 0))

/-- R62, R63, R64: both tables of the hardware are Latin squares with zero exactly on the diagonal and weakly totally
anti-symmetric. -/
def Obligations.HardwareTablesAreDamm : Prop :=
  IsDamm 10 (hardwareTables .table10) ∧ IsDamm 16 (hardwareTables .table16)

/-- R72: the checked facts, by their numbers there. The spec marks R72 as derived from R66 and R67. -/
def Obligations.CheckedTableFacts : Prop :=
  (IsLatin 10 (hardwareTables .table10) ∧ IsLatin 16 (hardwareTables .table16)) ∧
  (ZeroDiagonal 10 (hardwareTables .table10) ∧ ZeroDiagonal 16 (hardwareTables .table16)) ∧
  (WeaklyTotallyAntiSymmetric 10 (hardwareTables .table10) ∧ WeaklyTotallyAntiSymmetric 16 (hardwareTables .table16)) ∧
  ((∀ r c : Nibble, r.toNat < c.toNat → c.toNat < 10 → (hardwareTables .table10 r c = hardwareTables .table10 c r ↔
      (r, c) ∈ ([(1, 4), (2, 5), (0, 9), (7, 9)] : List (Nibble × Nibble)))) ∧
    ∀ r c : Nibble, hardwareTables .table16 r c = hardwareTables .table16 c r) ∧
  (∀ (t : TableId) (s x : Nibble), s.toNat < tableSize t → x.toNat < tableSize t →
    (hardwareTables t s x = 0 ↔ x = s)) ∧
  (∀ t : TableId, hardwareTables t 0 0 = 0) ∧
  (∀ (e : Engine) (a : Alphabet) (b : Byte) (s : List Byte), fromSymbol e a b = some 0 →
    fold hardwareTables (alphabetFns e a) (b :: s) = fold hardwareTables (alphabetFns e a) s)

/-- R69: `LKP n` reports the lookup in every phase, records nothing and leaves an open fold open. -/
def Obligations.LkpReportsLookup : Prop :=
  (∀ s : State, exec (.lkp 10#8) s = .next (s.answer s.engine 0x000A#16)) ∧
  (∀ s : State, exec (.lkp 16#8) s = .next (s.answer s.engine 0x0110#16)) ∧
  (∀ (n : Byte) (s : State), n ≠ 10#8 → n ≠ 16#8 →
    exec (.lkp n) s = .next (s.answer s.engine (respond .unsupportedSize 0 n))) ∧
  (∀ w : Word, opField w = 0xA#4 → w.extractLsb' 8 4 ≠ 0 → decode w = .error .mustBeZero)

/-- R70: `TRD t, r, c` returns the entry, in every phase, and changes nothing; outside the table it is answered as an
illegal command. -/
def Obligations.TrdReadsTable : Prop :=
  (∀ (t : TableId) (r c : Nibble) (s : State), r.toNat < tableSize t → c.toNat < tableSize t →
    exec (.trd t r c) s = .next (s.answer s.engine (respond .ok 0 ((tableEntry t r c).setWidth 8)))) ∧
  (∀ (t : TableId) (r c : Nibble) (s : State), ¬ (r.toNat < tableSize t ∧ c.toNat < tableSize t) →
    exec (.trd t r c) s = .next (s.answer s.engine 0x4000#16)) ∧
  (∀ w : Word, opField w = 0xB#4 → w.extractLsb' 9 3 ≠ 0 → decode w = .error .mustBeZero)

/-! ## The alphabets -/

/-- R85, R86, R87: the formulas of the three built-in alphabets, for every index and every byte. -/
def Obligations.BuiltinAlphabetFormulas : Prop :=
  ∀ e : Engine,
    (∀ i : Nibble, i.toNat ≤ 9 → toSymbol e .digit i = some (0x30#8 + i.setWidth 8) ∧
      toSymbol e .upperHex i = some (0x30#8 + i.setWidth 8) ∧ toSymbol e .lowerHex i = some (0x30#8 + i.setWidth 8)) ∧
    (∀ i : Nibble, 10 ≤ i.toNat → toSymbol e .upperHex i = some (0x37#8 + i.setWidth 8) ∧
      toSymbol e .lowerHex i = some (0x57#8 + i.setWidth 8)) ∧
    (∀ b : Byte, fromSymbol e .digit b =
      if 0x30#8 ≤ b ∧ b ≤ 0x39#8 then some ((b - 0x30#8).setWidth 4) else none) ∧
    (∀ b : Byte, fromSymbol e .upperHex b =
      if 0x30#8 ≤ b ∧ b ≤ 0x39#8 then some ((b - 0x30#8).setWidth 4)
      else if 0x41#8 ≤ b ∧ b ≤ 0x46#8 then some ((b - 0x37#8).setWidth 4) else none) ∧
    (∀ b : Byte, fromSymbol e .lowerHex b =
      if 0x30#8 ≤ b ∧ b ≤ 0x39#8 then some ((b - 0x30#8).setWidth 4)
      else if 0x61#8 ≤ b ∧ b ≤ 0x66#8 then some ((b - 0x57#8).setWidth 4) else none)

/-- R88: the user alphabet maps an index below `USIZE` to its map entry, and a byte to the least index below `USIZE`
that holds it, if there is one. -/
def Obligations.UserAlphabetTakesLeastIndex : Prop :=
  ∀ e : Engine,
    (∀ i : Nibble, i.toNat < e.usize.toNat → toSymbol e .user i = some (umRead e.um i)) ∧
    (∀ (b : Byte) (i : Nibble), fromSymbol e .user b = some i ↔
      i.toNat < e.usize.toNat ∧ umRead e.um i = b ∧
      ∀ j : Nibble, j.toNat < i.toNat → umRead e.um j ≠ b) ∧
    (∀ b : Byte, fromSymbol e .user b = none ↔
      ∀ j : Nibble, j.toNat < e.usize.toNat → umRead e.um j ≠ b)

/-- R82 for the built-in alphabets: `to_symbol` and `from_symbol` are mutual inverses. -/
def Obligations.BuiltinAlphabetsRoundTrip : Prop :=
  ∀ (e : Engine) (a : Alphabet), a ≠ .user → RoundTrip (alphabetFns e a)

/-- R91: the round-trip law holds of the user alphabet exactly when its map entries below `USIZE` are pairwise
distinct; of two equal entries the lower one is found, so the higher one does not come back. What both sides mean at
`USIZE` = 17 to 255, where the map has fewer entries than the size, is the model's choice (log entry 14). -/
def Obligations.UserRoundTripIffWellFormed : Prop :=
  ∀ e : Engine, (RoundTrip (alphabetFns e .user) ↔ UserAlphabetWellFormed e) ∧
    (∀ i j : Nibble, i.toNat < j.toNat → j.toNat < e.usize.toNat → umRead e.um i = umRead e.um j →
      fromSymbol e .user (symbolByte e .user j) ≠ some j)

/-- R89: `USZ n` in every phase: the size is stored without being looked up, the fold is closed, everything else is as
before. -/
def Obligations.UszStoresSizeAndClosesFold : Prop :=
  (∀ (n : Byte) (s : State), exec (.usz n) s = .next (s.answer
    { s.engine with usize := n, phase := .idle, acc := 0, tsel := .table10, errinfo := 0x00#8 } 0x0000#16)) ∧
  (∀ w : Word, opField w = 0x8#4 → w.extractLsb' 8 4 ≠ 0 → decode w = .error .mustBeZero)

/-- R90: `UMP i, b` in every phase: entry `i` reads `b` (in a memory that is in canonical form, as it is in every state
that a run reaches), every other entry reads as before, the fold is closed, everything else is as before. -/
def Obligations.UmpStoresEntryAndClosesFold : Prop :=
  (∀ (i : Nibble) (b : Byte) (s : State), ∃ m : Memory,
    exec (.ump i b) s = .next (s.answer
      { s.engine with um := m, phase := .idle, acc := 0, tsel := .table10, errinfo := 0x00#8 } 0x0000#16) ∧
    (Memory.wf s.engine.um = true → umRead m i = b) ∧
    ∀ a : Nat, a ≠ i.toNat → Memory.read m a = Memory.read s.engine.um a) ∧
  (∀ w : Word, opField w = 0x9#4 → ∃ i, decode w = .ok i)

/-- R50 and R162: the pseudo-command `UALPHA` with at most sixteen bytes loads the user alphabet (in a canonical memory, as
every run has it): afterwards `USIZE` is their number, `UMAP` holds them in order, no fold is open, and every command was answered 0x0000. -/
def Obligations.PseudoUserAlphabetLoadsMap : Prop :=
  ∀ (s : State) (cs : List Byte) (rest : List PortIn), Memory.wf s.engine.um = true → cs.length ≤ 16 →
    s.inbox = present (pseudoUserAlphabet cs) ++ rest →
    ∃ t : State, Sys2Proof.core.run (cs.length + 1) s = .next t ∧ t.inbox = rest ∧
      t.engine.usize = BitVec.ofNat 8 cs.length ∧ t.engine.phase = .idle ∧ t.engine.alpha = s.engine.alpha ∧
      (∀ (k : Nat) (c : Byte), cs[k]? = some c → Memory.read t.engine.um k = c) ∧
      (∀ k : Nat, cs.length ≤ k → Memory.read t.engine.um k = Memory.read s.engine.um k) ∧
      t.trace = s.trace ++ List.replicate (cs.length + 1) 0x0000#16

/-! ## The fold commands -/

/-- R113 (with R143): `SEL a` in every phase. With a table for the alphabet's size it opens a fold; without one it
records the size; only the user alphabet can be without. -/
def Obligations.SelOpensFoldOrRecordsSize : Prop :=
  (∀ (a : Alphabet) (s : State) (t : TableId), lookup (alphabetSize s.engine a) = some t →
    exec (.sel a) s = .next (s.answer
      { s.engine with alpha := a, acc := 0, tsel := t, errinfo := 0x00#8, phase := .active }
      (respond .ok (0#3 ++ t.code) (alphabetSize s.engine a)))) ∧
  (∀ (a : Alphabet) (s : State), lookup (alphabetSize s.engine a) = none →
    exec (.sel a) s = .next (s.answer
      { s.engine with alpha := a, acc := 0, tsel := .table10, errinfo := alphabetSize s.engine a, phase := .faultSize }
      (respond .unsupportedSize (0#2 ++ a.code) (alphabetSize s.engine a)))) ∧
  (∀ (a : Alphabet) (e : Engine), lookup (alphabetSize e a) = none ↔ a = .user ∧ e.usize ≠ 10#8 ∧ e.usize ≠ 16#8) ∧
  (∀ w : Word, opField w = 0x1#4 → w.extractLsb' 2 10 ≠ 0 → decode w = .error .mustBeZero)

/-- R112 (with R144 and R145): the five fold commands before any fold and after an error: a response, and no change. -/
def Obligations.PhaseGateAnswersWithoutEffect : Prop :=
  ∀ i : Instr, ((∃ b, i = .put b) ∨ i = .fin ∨ i = .chk ∨ i = .val ∨ i = .app) → AnswersWhileClosed i

/-- R114 (with R142). In an open fold an accepted symbol steps the accumulator through the table, row = accumulator,
column = the symbol's index, and any other byte aborts the fold and is recorded; while no fold is open, the gate. -/
def Obligations.PutStepsAccumulatorOrAborts : Prop :=
  (∀ (b : Byte) (x : Nibble) (s : State), s.Inv → s.engine.phase = .active →
    fromSymbol s.engine s.engine.alpha b = some x →
    exec (.put b) s = .next (s.answer { s.engine with acc := tableEntry s.engine.tsel s.engine.acc x } 0x0000#16)) ∧
  (∀ (b : Byte) (s : State), s.engine.phase = .active → fromSymbol s.engine s.engine.alpha b = none →
    exec (.put b) s = .next (s.answer
      { s.engine with acc := 0, tsel := .table10, errinfo := b, phase := .faultSymbol }
      (respond .invalidSymbol (0#2 ++ s.engine.alpha.code) b))) ∧
  (∀ b : Byte, AnswersWhileClosed (.put b)) ∧
  (∀ w : Word, opField w = 0x2#4 → w.extractLsb' 8 4 ≠ 0 → decode w = .error .mustBeZero)

/-- R115: the open fold's accumulator, zero-extended; nothing changes, so further symbols continue from it. -/
def Obligations.FinReadsAccumulator : Prop :=
  (∀ s : State, s.engine.phase = .active →
    exec .fin s = .next (s.answer s.engine (respond .ok 0 (s.engine.acc.setWidth 8)))) ∧
  AnswersWhileClosed .fin ∧
  (∀ w : Word, opField w = 0x3#4 → w ≠ 0x3000#16 → decode w = .error .mustBeZero)

/-- R116: the check symbol of an open fold; nothing changes. -/
def Obligations.ChkReadsCheckSymbol : Prop :=
  (∀ s : State, s.Inv → s.engine.phase = .active →
    exec .chk s = .next (s.answer s.engine (respond .ok 0 (symbolByte s.engine s.engine.alpha s.engine.acc)))) ∧
  AnswersWhileClosed .chk ∧
  (∀ w : Word, opField w = 0x4#4 → w ≠ 0x4000#16 → decode w = .error .mustBeZero)

/-- R117 (R19: the flag is `ACC` = 0): the validity of an open fold; nothing changes. -/
def Obligations.ValReadsValidity : Prop :=
  (∀ s : State, s.engine.phase = .active → s.engine.acc = 0 → exec .val s = .next (s.answer s.engine 0x0001#16)) ∧
  (∀ s : State, s.engine.phase = .active → s.engine.acc ≠ 0 → exec .val s = .next (s.answer s.engine 0x0000#16)) ∧
  AnswersWhileClosed .val ∧
  (∀ w : Word, opField w = 0x5#4 → w ≠ 0x5000#16 → decode w = .error .mustBeZero)

/-- R118: in an open fold the check symbol of the accumulator before the command is returned, the accumulator becomes
the table's diagonal entry, which is 0, and the fold stays open; what the reading commands and a second `APP` answer
then; and with the round-trip law `APP` leaves the engine as a `PUT` of the returned byte would. What holds after
`APP`, and the agreement with `PUT`, are marked as derived in R118. -/
def Obligations.AppReturnsCheckSymbolAndFoldsIt : Prop :=
  (∀ s : State, s.Inv → s.engine.phase = .active →
    exec .app s = .next (s.answer { s.engine with acc := 0 }
      (respond .ok 0 (symbolByte s.engine s.engine.alpha s.engine.acc))) ∧
    tableEntry s.engine.tsel s.engine.acc s.engine.acc = 0) ∧
  AnswersWhileClosed .app ∧
  (∀ w : Word, opField w = 0x6#4 → w ≠ 0x6000#16 → decode w = .error .mustBeZero) ∧
  (∀ s t : State, s.Inv → s.engine.phase = .active → exec .app s = .next t →
    exec .val t = .next (t.answer t.engine 0x0001#16) ∧ exec .fin t = .next (t.answer t.engine 0x0000#16) ∧
    exec .chk t = .next (t.answer t.engine (respond .ok 0 (symbolByte t.engine t.engine.alpha 0))) ∧
    exec .app t = .next (t.answer t.engine (respond .ok 0 (symbolByte t.engine t.engine.alpha 0)))) ∧
  (∀ s t u : State, s.Inv → s.engine.phase = .active → RoundTrip (alphabetFns s.engine s.engine.alpha) →
    exec .app s = .next t → exec (.put (symbolByte s.engine s.engine.alpha s.engine.acc)) s = .next u →
    t.engine = u.engine)

/-- R119, R21: `STS` in every phase, recorded errors included: the phase in bits 11..10, the alphabet in bits 9..8, the
error information below. -/
def Obligations.StsReadsStatus : Prop :=
  (∀ s : State, exec .sts s = .next (s.answer s.engine ((s.engine.phase.code.setWidth 16 <<< 10) |||
    (s.engine.alpha.code.setWidth 16 <<< 8) ||| s.engine.errinfo.setWidth 16))) ∧
  (∀ w : Word, opField w = 0x7#4 → w ≠ 0x7000#16 → decode w = .error .mustBeZero)

/-! ## Whole-machine rules -/

/-- R110: the phase after any step, by the event. The spec marks the table of R110 as derived from R113, R114, R89,
R90. -/
def Obligations.PhaseChangesByTable : Prop :=
  ∀ s t : State, step s = .next t →
    t.engine.phase =
      match s.inbox with
      | [] => s.engine.phase
      | p :: _ =>
        if p.rst then .idle
        else if p.cmdValid then
          match decode p.cmd with
          | .ok (.sel a) => if (lookup (alphabetSize s.engine a)).isSome then .active else .faultSize
          | .ok (.put b) =>
            if s.engine.phase = .active ∧ fromSymbol s.engine s.engine.alpha b = none then .faultSymbol
            else s.engine.phase
          | .ok (.usz _) => .idle
          | .ok (.ump _ _) => .idle
          | _ => s.engine.phase
        else s.engine.phase

/-- R145: in a fault phase every fold command repeats the recorded error and changes nothing; and when a `SEL` or a
`PUT` leaves a fault phase, that repetition is bit for bit the response given then. It does not matter which byte a
later `PUT` carries. -/
def Obligations.StickyRepeatsRaisedResponse : Prop :=
  (∀ j : Instr, isFoldCommand j = true → AnswersWhileClosed j) ∧
  (∀ (s t : State) (i j : Instr) (r : Word), (∃ a, i = .sel a) ∨ (∃ c, i = .put c) → exec i s = .next t →
    t.engine.phase = .faultSymbol ∨ t.engine.phase = .faultSize → t.rsp = some r →
    isFoldCommand j = true → exec j t = .next (t.answer t.engine r))

/-- R148: in a fault phase the engine is changed only by `SEL`, which starts a fresh fold or records a fresh size error,
by `USZ` and `UMP`, which go to IDLE, and by reset. -/
def Obligations.FaultPhaseIsLeftOnlyBy : Prop :=
  ∀ s t : State, step s = .next t → s.engine.phase = .faultSymbol ∨ s.engine.phase = .faultSize →
    t.engine ≠ s.engine →
    ∃ (p : PortIn) (rest : List PortIn), s.inbox = p :: rest ∧
      ((p.rst = true ∧ t.engine = State.reset.engine) ∨
       (p.rst = false ∧ p.cmdValid = true ∧ ∃ i, decode p.cmd = .ok i ∧
        ((∃ a, i = .sel a ∧ (t.engine.phase = .active ∨ t.engine.phase = .faultSize)) ∨
         (((∃ n, i = .usz n) ∨ ∃ x b, i = .ump x b) ∧ t.engine.phase = .idle))))

/-- R14, R15, R16, R17, R18, R11: which commands write which register. -/
def Obligations.RegistersHaveTheirWriters : Prop :=
  ∀ (i : Instr) (s t : State), exec i s = .next t →
    (t.engine.alpha ≠ s.engine.alpha → ∃ a, i = .sel a) ∧
    (t.engine.usize ≠ s.engine.usize → ∃ n, i = .usz n) ∧
    (∀ a : Nat, Memory.read t.engine.um a ≠ Memory.read s.engine.um a → ∃ x b, i = .ump x b ∧ x.toNat = a) ∧
    (t.engine.acc ≠ s.engine.acc →
      (∃ a, i = .sel a) ∨ (∃ b, i = .put b) ∨ i = .app ∨ (∃ n, i = .usz n) ∨ ∃ x b, i = .ump x b) ∧
    (t.engine.tsel ≠ s.engine.tsel ∨ t.engine.errinfo ≠ s.engine.errinfo ∨ t.engine.phase ≠ s.engine.phase →
      (∃ a, i = .sel a) ∨ (∃ b, i = .put b) ∨ (∃ n, i = .usz n) ∨ ∃ x b, i = .ump x b)

/-- R35: `TRD`, `LKP`, `STS`, `FIN`, `CHK`, `VAL` leave the engine unchanged, and repeating them gives the same
response. -/
def Obligations.ReadingCommandsAreIdempotent : Prop :=
  ∀ (i : Instr) (s t : State), (i ∈ [.fin, .chk, .val, .sts] ∨ (∃ n, i = .lkp n) ∨ ∃ x r c, i = .trd x r c) →
    exec i s = .next t →
    t.engine = s.engine ∧ ∃ r : Word, t.rsp = some r ∧ exec i t = .next (t.answer t.engine r)

/-- R25: outside an open fold no response of any command depends on the accumulator or the table selector, so nothing
of an aborted fold can be read. -/
def Obligations.NoPartialResultIsReadable : Prop :=
  ∀ (i : Instr) (s s' t t' : State), s.engine.phase ≠ .active →
    s'.engine = { s.engine with acc := s'.engine.acc, tsel := s'.engine.tsel } →
    exec i s = .next t → exec i s' = .next t' → t.rsp = t'.rsp

/-- R161: `SEL` overwrites `PHASE`, `ALPHA`, `TSEL`, `ACC`, `ERRINFO` unconditionally: after it only `USIZE` and `UMAP`
tell what was before, and for a built-in alphabet not even these reach the response. -/
def Obligations.SelForgetsThePast : Prop :=
  ∀ (a : Alphabet) (s s' t t' : State), exec (.sel a) s = .next t → exec (.sel a) s' = .next t' →
    (s.engine.usize = s'.engine.usize → s.engine.um = s'.engine.um → t.engine = t'.engine ∧ t.rsp = t'.rsp) ∧
    (a ≠ .user → t.rsp = t'.rsp ∧ t'.engine = { t.engine with usize := s'.engine.usize, um := s'.engine.um })

/-- R165: after a write to the user alphabet every fold command answers `E_NO_FOLD` until the next `SEL`. -/
def Obligations.AlphabetWriteClosesFold : Prop :=
  ∀ (s t : State) (i j : Instr), exec i s = .next t → (∃ n, i = .usz n) ∨ (∃ x c, i = .ump x c) →
    isFoldCommand j = true → exec j t = .next (t.answer t.engine 0x3000#16)

/-- Where the model stops (log entry 4): only `PUT`, `CHK` and `APP` in an open fold, by a table read outside the table
or an index outside the alphabet, and it never refuses. -/
def Obligations.StopsExactly : Prop :=
  (∀ (i : Instr) (s : State) (f : Fault), exec i s = .fault f ↔
    s.engine.phase = .active ∧
    ((∃ b x, i = .put b ∧ fromSymbol s.engine s.engine.alpha b = some x ∧
        ¬ (s.engine.acc.toNat < tableSize s.engine.tsel ∧ x.toNat < tableSize s.engine.tsel) ∧ f = .tabAddress) ∨
     ((i = .chk ∨ i = .app) ∧ ¬ s.engine.acc.toNat < (alphabetSize s.engine s.engine.alpha).toNat ∧ f = .symbolIndex) ∨
     (i = .app ∧ s.engine.acc.toNat < (alphabetSize s.engine s.engine.alpha).toNat ∧
        ¬ s.engine.acc.toNat < tableSize s.engine.tsel ∧ f = .tabAddress))) ∧
  (∀ (i : Instr) (s : State) (r : Refusal), exec i s ≠ .refused r)

/-! ## Invariants -/

/-- R129: reset establishes the invariants of R22. -/
def Obligations.ResetMeetsInvariants : Prop := State.reset.Inv

/-- R129: every step, whatever the host drives, keeps the invariants of R22. -/
def Obligations.StepKeepsInvariants : Prop :=
  ∀ s t : State, s.Inv → step s = .next t → t.Inv

/-- R68, R170: in a state that meets the invariants no step stops, whatever the host drives: no table is read out of
range, and an engine is never stuck. -/
def Obligations.InvariantStatesNeverStop : Prop :=
  ∀ s : State, s.Inv → ∃ t : State, step s = .next t

/-- R22: the invariants hold in every state reachable from reset by any sequence of commands, resets and idle clocks,
and the run can go on from there. The spec marks R22 as derived (R129 gives the argument). -/
def Obligations.ReachableStatesAreSafe : Prop :=
  ∀ s : State, Reachable s → s.Inv ∧ ∃ t : State, step s = .next t ∧ Reachable t

/-- The model's own (log entry 6): reset memory is in canonical form, every step keeps that form, and in it equal
contents are equal memories. -/
def Obligations.MemoryStaysCanonical : Prop :=
  Memory.wf State.reset.engine.um = true ∧
  (∀ s t : State, Memory.wf s.engine.um = true → step s = .next t → Memory.wf t.engine.um = true) ∧
  (∀ m m' : Memory, Memory.wf m = true → Memory.wf m' = true → (∀ i : Nibble, umRead m i = umRead m' i) → m = m')

/-- R152, R37: the steps of different engines commute, and a step of one engine leaves every other engine alone. -/
def Obligations.EnginesAreIndependent : Prop :=
  ∀ (n : Nat) (σ σ₁ σ₂ : System n) (k j : Fin n), k ≠ j →
    σ.stepEngine k = .next σ₁ → σ₁.stepEngine j = .next σ₂ →
    σ₁[j] = σ[j] ∧ ∃ σ₃ : System n, σ.stepEngine j = .next σ₃ ∧ σ₃.stepEngine k = .next σ₂

/-! ## The pure functions and their properties, for every table and alphabet (R65) -/

/-- R104: for every state there is exactly one index that leads to 0, and it is the state itself. That the index is
the state itself is marked as derived in R104. -/
def Obligations.CheckSymbolExistsUniquely : Prop :=
  ∀ (n : Nat) (T : Table) (c : Nibble), IsDamm n T → c.toNat < n →
    ∃ x : Nibble, (x.toNat < n ∧ T c x = 0 ∧ ∀ y : Nibble, y.toNat < n → T c y = 0 → y = x) ∧ x = c

/-- R107: the empty input. The value of `fold` on the empty sequence is marked as derived in R107. -/
def Obligations.EmptyInputIsValid : Prop :=
  ∀ (tables : Tables) (A : AlphabetFns),
    (∀ t : TableId, lookup A.size = some t → fold tables A [] = .ok 0 ∧
      checkSymbol tables A [] = .ok (A.toSymbol 0) ∧ isValid tables A [] = .ok true) ∧
    (lookup A.size = none → fold tables A [] = .error (.unsupportedAlphabetSize A.size)) ∧
    (∀ (e : Engine) (a : Alphabet), a ≠ .user → (alphabetFns e a).toSymbol 0 = 0x30#8)

/-- R108: a sequence extended by its own check symbol is valid, for every table and alphabet; and the rule's two
instances over the hardware's own tables and alphabets. -/
def Obligations.SelfGeneratedCheckSymbolValidates : Prop :=
  (∀ (tables : Tables) (A : AlphabetFns) (t : TableId) (s : List Byte) (c : Byte),
    lookup A.size = some t → IsDamm A.size.toNat (tables t) → RoundTrip A →
    checkSymbol tables A s = .ok c → isValid tables A (s ++ [c]) = .ok true) ∧
  (∀ e : Engine, checkSymbol hardwareTables (alphabetFns e .digit) [0x35#8, 0x37#8, 0x32#8] = .ok 0x34#8 ∧
    isValid hardwareTables (alphabetFns e .digit) [0x35#8, 0x37#8, 0x32#8, 0x34#8] = .ok true ∧
    checkSymbol hardwareTables (alphabetFns e .upperHex) [0x31#8, 0x41#8, 0x32#8, 0x42#8] = .ok 0x31#8 ∧
    isValid hardwareTables (alphabetFns e .upperHex) [0x31#8, 0x41#8, 0x32#8, 0x42#8, 0x31#8] = .ok true)

/-- R105: substituting one symbol of a sequence with its check symbol, at any position, the check symbol's own
included, makes it invalid. -/
def Obligations.SingleSubstitutionIsDetected : Prop :=
  ∀ (tables : Tables) (A : AlphabetFns) (t : TableId) (s pre post : List Byte) (c0 b c : Byte),
    lookup A.size = some t → IsDamm A.size.toNat (tables t) → RoundTrip A →
    checkSymbol tables A s = .ok c0 → s ++ [c0] = pre ++ b :: post → c ≠ b → (A.fromSymbol c).isSome = true →
    isValid tables A (pre ++ c :: post) = .ok false

/-- R106: swapping two different adjacent symbols of a sequence with its check symbol, the last pair included, makes
it invalid; and for a Latin square with zero diagonal the transposition invariant is exactly what this needs. The
converse is R106's own inference ("Conversely the property forces rule R64"). -/
def Obligations.AdjacentTranspositionIsDetected : Prop :=
  ∀ (tables : Tables) (A : AlphabetFns) (t : TableId),
    lookup A.size = some t → IsLatin A.size.toNat (tables t) → ZeroDiagonal A.size.toNat (tables t) → RoundTrip A →
    (WeaklyTotallyAntiSymmetric A.size.toNat (tables t) ↔
      ∀ (s pre post : List Byte) (c0 x y : Byte), checkSymbol tables A s = .ok c0 →
        s ++ [c0] = pre ++ x :: y :: post → x ≠ y → isValid tables A (pre ++ y :: x :: post) = .ok false)

/-- R100 to R103: what the four operations give. An error of `fold` is the error of every operation; an unsupported
size wins over any symbol, and among symbols the first one outside the alphabet is reported, with the alphabet; without
an error, the results are those of the final state, which lies below the size. -/
def Obligations.OperationsFollowFold : Prop :=
  ∀ (tables : Tables) (A : AlphabetFns) (s : List Byte),
    (∀ e : FoldError, fold tables A s = .error e →
      checkSymbol tables A s = .error e ∧ isValid tables A s = .error e ∧ appendCheckSymbol tables A s = .error e) ∧
    (∀ k : Nibble, fold tables A s = .ok k →
      checkSymbol tables A s = .ok (A.toSymbol k) ∧ isValid tables A s = .ok (decide (k = 0)) ∧
      appendCheckSymbol tables A s = .ok (s ++ [A.toSymbol k])) ∧
    (lookup A.size = none → fold tables A s = .error (.unsupportedAlphabetSize A.size)) ∧
    (∀ (t : TableId) (b : Byte) (B : AlphabetFns), lookup A.size = some t →
      (fold tables A s = .error (.invalidSymbol b B) ↔
        B = A ∧ ∃ pre post : List Byte, s = pre ++ b :: post ∧ A.fromSymbol b = none ∧
          ∀ c ∈ pre, (A.fromSymbol c).isSome = true)) ∧
    (∀ (t : TableId) (xs : List Nibble), lookup A.size = some t → s.map A.fromSymbol = xs.map some →
      fold tables A s = .ok (xs.foldl (tables t) 0)) ∧
    (∀ (t : TableId) (k : Nibble), lookup A.size = some t → IsLatin A.size.toNat (tables t) → RoundTrip A →
      fold tables A s = .ok k → k.toNat < A.size.toNat)

/-- R128: the commands of a call answer what the pure functions give, in every state; and after `APP` the engine is in
the state after the extended sequence when the alphabet satisfies the round-trip law. The spec marks R128 as derived.
-/
def Obligations.CommandsComputePureFunctions : Prop :=
  ∀ (s : State) (a : Alphabet) (bytes : List Byte) (x : ReadCommand) (rest : List PortIn),
    s.inbox = present (pseudoCall a bytes x) ++ rest →
    ∃ t : State, Sys2Proof.core.run (bytes.length + 2) s = .next t ∧ t.inbox = rest ∧
      t.rsp = some (foldResponse (alphabetFns s.engine a) a x (fold hardwareTables (alphabetFns s.engine a) bytes)) ∧
      t.trace = s.trace ++ streamResponses (alphabetFns s.engine a) a bytes ++
        [foldResponse (alphabetFns s.engine a) a x (fold hardwareTables (alphabetFns s.engine a) bytes)] ∧
      (∀ (c : Byte) (u : State), x = .app → RoundTrip (alphabetFns s.engine a) →
        checkSymbol hardwareTables (alphabetFns s.engine a) bytes = .ok c →
        Sys2Proof.core.run (bytes.length + 2)
          { s with inbox := present (.sel a :: pseudoPuts (bytes ++ [c])) } = .next u →
        u.engine = t.engine)

/-! ## The block over other tables (R6, R24, R65) -/

/-- R24, R65 (D12, D13): the hardware is the block at the default tables: the same commands, the same step, the same
runs. -/
def Obligations.HardwareIsBlockOverDefaultTables : Prop :=
  (∀ (i : Instr) (s : State), exec i s = execOn hardwareTables i s) ∧
  (∀ s : State, step s = stepOn hardwareTables s) ∧
  (∀ (n : Nat) (s : State), Sys2Proof.core.run n s = (coreOn hardwareTables).run n s)

/-- R65: over any two tables that meet R62, R63 and R64 the block keeps the invariants of R22, never stops in a state
that meets them, and answers to the commands of a call what the pure functions over those tables give. -/
def Obligations.AnyDammTablesGiveABlock : Prop :=
  ∀ T : Tables, IsDamm 10 (T .table10) → IsDamm 16 (T .table16) →
    (∀ s : State, s.Inv → ∃ t : State, stepOn T s = .next t ∧ t.Inv) ∧
    (∀ (s : State) (a : Alphabet) (bytes : List Byte) (x : ReadCommand) (rest : List PortIn),
      s.inbox = present (pseudoCall a bytes x) ++ rest →
      ∃ t : State, (coreOn T).run (bytes.length + 2) s = .next t ∧ t.inbox = rest ∧
        t.rsp = some (foldResponse (alphabetFns s.engine a) a x (fold T (alphabetFns s.engine a) bytes)))

/-- R105, R106, R108 of the block itself, through R128, over any two tables that meet R62, R63 and R64 (the hardware's
do, `HardwareTablesAreDamm`): `VALID` over a sequence with its check symbol answers 0x0001, and over that sequence with
one symbol substituted, or with two different adjacent symbols swapped, it answers 0x0000; for every built-in alphabet
and every well-formed user alphabet of a registered size, in every state. -/
def Obligations.EngineDetectsSingleErrors : Prop :=
  ∀ (T : Tables) (s : State) (a : Alphabet) (t : TableId) (bytes : List Byte) (c0 : Byte),
    IsDamm 10 (T .table10) → IsDamm 16 (T .table16) →
    lookup (alphabetSize s.engine a) = some t → (a = .user → UserAlphabetWellFormed s.engine) →
    checkSymbol T (alphabetFns s.engine a) bytes = .ok c0 →
    (s.inbox = present (pseudoValid a (bytes ++ [c0])) →
      ∃ u : State, (coreOn T).run (bytes.length + 3) s = .next u ∧ u.rsp = some 0x0001#16) ∧
    (∀ (pre post : List Byte) (b c : Byte), bytes ++ [c0] = pre ++ b :: post → c ≠ b →
      (fromSymbol s.engine a c).isSome = true → s.inbox = present (pseudoValid a (pre ++ c :: post)) →
      ∃ u : State, (coreOn T).run (bytes.length + 3) s = .next u ∧ u.rsp = some 0x0000#16) ∧
    (∀ (pre post : List Byte) (x y : Byte), bytes ++ [c0] = pre ++ x :: y :: post → x ≠ y →
      s.inbox = present (pseudoValid a (pre ++ y :: x :: post)) →
      ∃ u : State, (coreOn T).run (bytes.length + 3) s = .next u ∧ u.rsp = some 0x0000#16)
end

