-- ==== Sys2Proof/Laws/Asm.lean ====
section
/-! SUPPORT. What the assembler reads from the hexadecimal operands that `renderLine` writes: a digit is no quote, comma,
comment or blank, and `0xHH` reads back as its byte. -/

namespace Sys2Proof.Machine

@[simp] theorem hexDigit_ne_semicolon (v : Nibble) : (hexDigit v == ';') = false := by revert v; decide

@[simp] theorem hexDigit_ne_comma (v : Nibble) : (hexDigit v == ',') = false := by revert v; decide

@[simp] theorem hexDigit_not_blank (v : Nibble) : isBlank (hexDigit v) = false := by revert v; decide

/-- A hexadecimal digit opens no quotes. -/
@[simp] theorem next_hexDigit (v : Nibble) : Quoting.next .outside (hexDigit v) = .outside := by revert v; decide

@[simp] theorem digitValue_hexDigit (v : Nibble) : digitValue true (hexDigit v) = some v.toNat := by revert v; decide

theorem parseOperand_hex (a b : Nibble) :
    parseOperand ['0', 'x', hexDigit a, hexDigit b] = some (.number (a.toNat * 16 + b.toNat)) := by
  simp [parseOperand, alphabetName, parseNumber, numberFrom, singleQuote, doubleQuote]

/-- A byte is its two digits. -/
theorem byte_of_digits (b : Byte) : (b.extractLsb' 4 4).toNat * 16 + (b.extractLsb' 0 4).toNat = b.toNat := by
  revert b; decide

/-- A written byte reads back. -/
theorem parseOperand_renderByte (b : Byte) : parseOperand (renderByte b) = some (.number b.toNat) := by
  rw [renderByte, parseOperand_hex, byte_of_digits]

/-- A number that fits is a field's value (R44). -/
theorem field_number (k : Nat) (v : BitVec k) : AsmOperand.field k (.number v.toNat) = some v := by
  simp [AsmOperand.field, AsmOperand.value, v.isLt]

end Sys2Proof.Machine
end

