-- ==== Sys2Proof/Laws/State.lean ====
section
/-! SUPPORT. One lemma per field per update, true by definition, so that no later proof unfolds a record. -/

namespace Sys2Proof.Machine

@[simp] theorem Engine.closeFold_phase (e : Engine) : e.closeFold.phase = .idle := rfl
@[simp] theorem Engine.closeFold_alpha (e : Engine) : e.closeFold.alpha = e.alpha := rfl
@[simp] theorem Engine.closeFold_tsel (e : Engine) : e.closeFold.tsel = .table10 := rfl
@[simp] theorem Engine.closeFold_acc (e : Engine) : e.closeFold.acc = 0 := rfl
@[simp] theorem Engine.closeFold_errinfo (e : Engine) : e.closeFold.errinfo = 0x00#8 := rfl
@[simp] theorem Engine.closeFold_usize (e : Engine) : e.closeFold.usize = e.usize := rfl
@[simp] theorem Engine.closeFold_um (e : Engine) : e.closeFold.um = e.um := rfl

@[simp] theorem Engine.openFold_phase (e : Engine) (a : Alphabet) (t : TableId) : (e.openFold a t).phase = .active := rfl
@[simp] theorem Engine.openFold_alpha (e : Engine) (a : Alphabet) (t : TableId) : (e.openFold a t).alpha = a := rfl
@[simp] theorem Engine.openFold_tsel (e : Engine) (a : Alphabet) (t : TableId) : (e.openFold a t).tsel = t := rfl
@[simp] theorem Engine.openFold_acc (e : Engine) (a : Alphabet) (t : TableId) : (e.openFold a t).acc = 0 := rfl
@[simp] theorem Engine.openFold_errinfo (e : Engine) (a : Alphabet) (t : TableId) : (e.openFold a t).errinfo = 0x00#8 := rfl
@[simp] theorem Engine.openFold_usize (e : Engine) (a : Alphabet) (t : TableId) : (e.openFold a t).usize = e.usize := rfl
@[simp] theorem Engine.openFold_um (e : Engine) (a : Alphabet) (t : TableId) : (e.openFold a t).um = e.um := rfl

@[simp] theorem Engine.setAcc_phase (e : Engine) (v : Nibble) : (e.setAcc v).phase = e.phase := rfl
@[simp] theorem Engine.setAcc_alpha (e : Engine) (v : Nibble) : (e.setAcc v).alpha = e.alpha := rfl
@[simp] theorem Engine.setAcc_tsel (e : Engine) (v : Nibble) : (e.setAcc v).tsel = e.tsel := rfl
@[simp] theorem Engine.setAcc_acc (e : Engine) (v : Nibble) : (e.setAcc v).acc = v := rfl
@[simp] theorem Engine.setAcc_errinfo (e : Engine) (v : Nibble) : (e.setAcc v).errinfo = e.errinfo := rfl
@[simp] theorem Engine.setAcc_usize (e : Engine) (v : Nibble) : (e.setAcc v).usize = e.usize := rfl
@[simp] theorem Engine.setAcc_um (e : Engine) (v : Nibble) : (e.setAcc v).um = e.um := rfl

@[simp] theorem Engine.setUsize_phase (e : Engine) (n : Byte) : (e.setUsize n).phase = e.phase := rfl
@[simp] theorem Engine.setUsize_alpha (e : Engine) (n : Byte) : (e.setUsize n).alpha = e.alpha := rfl
@[simp] theorem Engine.setUsize_tsel (e : Engine) (n : Byte) : (e.setUsize n).tsel = e.tsel := rfl
@[simp] theorem Engine.setUsize_acc (e : Engine) (n : Byte) : (e.setUsize n).acc = e.acc := rfl
@[simp] theorem Engine.setUsize_errinfo (e : Engine) (n : Byte) : (e.setUsize n).errinfo = e.errinfo := rfl
@[simp] theorem Engine.setUsize_usize (e : Engine) (n : Byte) : (e.setUsize n).usize = n := rfl
@[simp] theorem Engine.setUsize_um (e : Engine) (n : Byte) : (e.setUsize n).um = e.um := rfl

@[simp] theorem Engine.setUm_phase (e : Engine) (i : Nibble) (b : Byte) : (e.setUm i b).phase = e.phase := rfl
@[simp] theorem Engine.setUm_alpha (e : Engine) (i : Nibble) (b : Byte) : (e.setUm i b).alpha = e.alpha := rfl
@[simp] theorem Engine.setUm_tsel (e : Engine) (i : Nibble) (b : Byte) : (e.setUm i b).tsel = e.tsel := rfl
@[simp] theorem Engine.setUm_acc (e : Engine) (i : Nibble) (b : Byte) : (e.setUm i b).acc = e.acc := rfl
@[simp] theorem Engine.setUm_errinfo (e : Engine) (i : Nibble) (b : Byte) : (e.setUm i b).errinfo = e.errinfo := rfl
@[simp] theorem Engine.setUm_usize (e : Engine) (i : Nibble) (b : Byte) : (e.setUm i b).usize = e.usize := rfl
@[simp] theorem Engine.setUm_um (e : Engine) (i : Nibble) (b : Byte) : (e.setUm i b).um = umWrite e.um i b := rfl

@[simp] theorem Engine.recordError_phase (e : Engine) (k : ErrorKind) (a : Alphabet) (info : Byte) : (e.recordError k a info).phase = k.phase := rfl
@[simp] theorem Engine.recordError_alpha (e : Engine) (k : ErrorKind) (a : Alphabet) (info : Byte) : (e.recordError k a info).alpha = a := rfl
@[simp] theorem Engine.recordError_tsel (e : Engine) (k : ErrorKind) (a : Alphabet) (info : Byte) : (e.recordError k a info).tsel = .table10 := rfl
@[simp] theorem Engine.recordError_acc (e : Engine) (k : ErrorKind) (a : Alphabet) (info : Byte) : (e.recordError k a info).acc = 0 := rfl
@[simp] theorem Engine.recordError_errinfo (e : Engine) (k : ErrorKind) (a : Alphabet) (info : Byte) : (e.recordError k a info).errinfo = info := rfl
@[simp] theorem Engine.recordError_usize (e : Engine) (k : ErrorKind) (a : Alphabet) (info : Byte) : (e.recordError k a info).usize = e.usize := rfl
@[simp] theorem Engine.recordError_um (e : Engine) (k : ErrorKind) (a : Alphabet) (info : Byte) : (e.recordError k a info).um = e.um := rfl

@[simp] theorem State.answer_engine (s : State) (e : Engine) (r : Word) : (s.answer e r).engine = e := rfl
@[simp] theorem State.answer_inbox (s : State) (e : Engine) (r : Word) : (s.answer e r).inbox = s.inbox := rfl
@[simp] theorem State.answer_rsp (s : State) (e : Engine) (r : Word) : (s.answer e r).rsp = some r := rfl
@[simp] theorem State.answer_trace (s : State) (e : Engine) (r : Word) : (s.answer e r).trace = s.trace ++ [r] := rfl

@[simp] theorem State.raiseError_engine (s : State) (k : ErrorKind) (a : Alphabet) (info : Byte) : (s.raiseError k a info).engine = s.engine.recordError k a info := rfl
@[simp] theorem State.raiseError_inbox (s : State) (k : ErrorKind) (a : Alphabet) (info : Byte) : (s.raiseError k a info).inbox = s.inbox := rfl
@[simp] theorem State.raiseError_rsp (s : State) (k : ErrorKind) (a : Alphabet) (info : Byte) : (s.raiseError k a info).rsp = some (errorResponse k a info) := rfl
@[simp] theorem State.raiseError_trace (s : State) (k : ErrorKind) (a : Alphabet) (info : Byte) : (s.raiseError k a info).trace = s.trace ++ [errorResponse k a info] := rfl

@[simp] theorem State.answerIllegal_engine (s : State) : s.answerIllegal.engine = s.engine := rfl
@[simp] theorem State.answerIllegal_inbox (s : State) : s.answerIllegal.inbox = s.inbox := rfl
@[simp] theorem State.answerIllegal_rsp (s : State) : s.answerIllegal.rsp = some (respond .illegalCmd 0 0x00#8) := rfl
@[simp] theorem State.answerIllegal_trace (s : State) : s.answerIllegal.trace = s.trace ++ [respond .illegalCmd 0 0x00#8] := rfl

@[simp] theorem State.idleClock_engine (s : State) : s.idleClock.engine = s.engine := rfl
@[simp] theorem State.idleClock_inbox (s : State) : s.idleClock.inbox = s.inbox := rfl
@[simp] theorem State.idleClock_rsp (s : State) : s.idleClock.rsp = none := rfl
@[simp] theorem State.idleClock_trace (s : State) : s.idleClock.trace = s.trace := rfl

@[simp] theorem State.takeReset_engine (s : State) : s.takeReset.engine = Engine.reset := rfl
@[simp] theorem State.takeReset_inbox (s : State) : s.takeReset.inbox = s.inbox := rfl
@[simp] theorem State.takeReset_rsp (s : State) : s.takeReset.rsp = none := rfl
@[simp] theorem State.takeReset_trace (s : State) : s.takeReset.trace = s.trace := rfl

@[simp] theorem State.withFetchWord_engine (s : State) (nbits w : Nat) : (s.withFetchWord nbits w).engine = s.engine := rfl
@[simp] theorem State.withFetchWord_inbox (s : State) (nbits w : Nat) : (s.withFetchWord nbits w).inbox = PortIn.command (wordOfBits nbits w) :: s.inbox := rfl
@[simp] theorem State.withFetchWord_rsp (s : State) (nbits w : Nat) : (s.withFetchWord nbits w).rsp = s.rsp := rfl
@[simp] theorem State.withFetchWord_trace (s : State) (nbits w : Nat) : (s.withFetchWord nbits w).trace = s.trace := rfl

end Sys2Proof.Machine
end

