-- ==== Sys2Proof/Laws/Decode.lean ====
section
/-! SUPPORT. The fields of the words that `encode` and `respond` lay out, and the field codes. -/

namespace Sys2Proof

@[simp] theorem Alphabet.ofCode_code (a : Alphabet) : Alphabet.ofCode a.code = a := by cases a <;> rfl

@[simp] theorem Alphabet.code_ofCode (c : BitVec 2) : (Alphabet.ofCode c).code = c := by
  revert c; decide

@[simp] theorem TableId.ofCode_code (t : TableId) : TableId.ofCode t.code = t := by cases t <;> rfl

@[simp] theorem TableId.code_ofCode (c : BitVec 1) : (TableId.ofCode c).code = c := by
  revert c; decide

/-- The low field of a concatenation. -/
theorem extract_low {n m : Nat} (x : BitVec n) (y : BitVec m) : (x ++ y).extractLsb' 0 m = y := by
  apply BitVec.eq_of_getLsbD_eq
  intro k hk
  simp [BitVec.getLsbD_append, hk]

/-- A field above the low part of a concatenation. -/
theorem extract_high {n m : Nat} (x : BitVec n) (y : BitVec m) (start len : Nat) (h : m ≤ start) :
    (x ++ y).extractLsb' start len = x.extractLsb' (start - m) len := by
  apply BitVec.eq_of_getLsbD_eq
  intro k hk
  have : ¬ start + k < m := by omega
  simp [BitVec.getLsbD_append, hk, this, show start + k - m = start - m + k by omega]

/-- A field inside the low part of a concatenation. -/
theorem extract_inside {n m : Nat} (x : BitVec n) (y : BitVec m) (start len : Nat) (h : start + len ≤ m) :
    (x ++ y).extractLsb' start len = y.extractLsb' start len := by
  apply BitVec.eq_of_getLsbD_eq
  intro k hk
  have : start + k < m := by omega
  simp [BitVec.getLsbD_append, hk, this]

/-- A whole value is its own field. -/
theorem extract_whole {n : Nat} (x : BitVec n) : x.extractLsb' 0 n = x := by
  apply BitVec.eq_of_getLsbD_eq
  intro k hk
  simp [hk]

/-- Two neighbouring fields make one. -/
theorem join_fields {W : Nat} (w : BitVec W) (lo m n : Nat) :
    w.extractLsb' (lo + m) n ++ w.extractLsb' lo m = w.extractLsb' lo (n + m) := by
  apply BitVec.eq_of_getLsbD_eq
  intro k hk
  rw [BitVec.getLsbD_append]
  split
  · next h => simp [h, hk]
  · next h => simp [hk, show k - m < n by omega, show lo + m + (k - m) = lo + k by omega]

/-! A word is the concatenation of the fields that a format cuts it into (R40, R41). -/

theorem word_of_op_12 (w : Word) : (opField w ++ w.extractLsb' 0 12 : Word) = w :=
  (join_fields w 0 12 4).trans (extract_whole w)

theorem word_of_op_10_2 (w : Word) : (opField w ++ w.extractLsb' 2 10 ++ w.extractLsb' 0 2 : Word) = w :=
  (congrArg (fun x : BitVec 14 => x ++ w.extractLsb' 0 2) (join_fields w 2 10 4)).trans
    ((join_fields w 0 2 14).trans (extract_whole w))

theorem word_of_op_4_8 (w : Word) : (opField w ++ w.extractLsb' 8 4 ++ w.extractLsb' 0 8 : Word) = w :=
  (congrArg (fun x : BitVec 8 => x ++ w.extractLsb' 0 8) (join_fields w 8 4 4)).trans
    ((join_fields w 0 8 8).trans (extract_whole w))

theorem word_of_op_3_1_4_4 (w : Word) :
    (opField w ++ w.extractLsb' 9 3 ++ w.extractLsb' 8 1 ++ w.extractLsb' 4 4 ++ w.extractLsb' 0 4 : Word) = w :=
  (congrArg (fun x : BitVec 7 => x ++ w.extractLsb' 8 1 ++ w.extractLsb' 4 4 ++ w.extractLsb' 0 4)
      (join_fields w 9 3 4)).trans
    ((congrArg (fun x : BitVec 8 => x ++ w.extractLsb' 4 4 ++ w.extractLsb' 0 4) (join_fields w 8 1 7)).trans
      ((congrArg (fun x : BitVec 12 => x ++ w.extractLsb' 0 4) (join_fields w 4 4 8)).trans
        ((join_fields w 0 4 12).trans (extract_whole w))))

/-- Masking goes field by field. -/
theorem and_append {n m : Nat} (a b : BitVec n) (c d : BitVec m) : (a ++ c) &&& (b ++ d) = (a &&& b) ++ (c &&& d) := by
  apply BitVec.eq_of_getLsbD_eq
  intro k hk
  rw [BitVec.getLsbD_and, BitVec.getLsbD_append, BitVec.getLsbD_append, BitVec.getLsbD_append]
  split <;> rw [BitVec.getLsbD_and]

/-- Two concatenations are equal when their parts are. -/
theorem append_inj {n m : Nat} {a b : BitVec n} {c d : BitVec m} : a ++ c = b ++ d ↔ a = b ∧ c = d := by
  constructor
  · intro h
    have hlow := congrArg (fun x => x.extractLsb' 0 m) h
    have hhigh := congrArg (fun x => x.extractLsb' m n) h
    simp only [extract_low, extract_high _ _ m n (Nat.le_refl m), Nat.sub_self, extract_whole] at hlow hhigh
    exact ⟨hhigh, hlow⟩
  · rintro ⟨rfl, rfl⟩; rfl

/-! The decoder by opcode (R45). -/

theorem decode_sel {w : Word} (h : opField w = 0x1#4) : decode w =
    checkMbz (w.extractLsb' 2 10) (.sel (.ofCode (w.extractLsb' 0 2))) := by
  unfold decode; rw [h]; rfl

theorem decode_put {w : Word} (h : opField w = 0x2#4) : decode w =
    checkMbz (w.extractLsb' 8 4) (.put (w.extractLsb' 0 8)) := by
  unfold decode; rw [h]; rfl

theorem decode_fin {w : Word} (h : opField w = 0x3#4) : decode w =
    checkMbz (w.extractLsb' 0 12) .fin := by
  unfold decode; rw [h]; rfl

theorem decode_chk {w : Word} (h : opField w = 0x4#4) : decode w =
    checkMbz (w.extractLsb' 0 12) .chk := by
  unfold decode; rw [h]; rfl

theorem decode_val {w : Word} (h : opField w = 0x5#4) : decode w =
    checkMbz (w.extractLsb' 0 12) .val := by
  unfold decode; rw [h]; rfl

theorem decode_app {w : Word} (h : opField w = 0x6#4) : decode w =
    checkMbz (w.extractLsb' 0 12) .app := by
  unfold decode; rw [h]; rfl

theorem decode_sts {w : Word} (h : opField w = 0x7#4) : decode w =
    checkMbz (w.extractLsb' 0 12) .sts := by
  unfold decode; rw [h]; rfl

theorem decode_usz {w : Word} (h : opField w = 0x8#4) : decode w =
    checkMbz (w.extractLsb' 8 4) (.usz (w.extractLsb' 0 8)) := by
  unfold decode; rw [h]; rfl

theorem decode_ump {w : Word} (h : opField w = 0x9#4) : decode w =
    .ok (.ump (w.extractLsb' 8 4) (w.extractLsb' 0 8)) := by
  unfold decode; rw [h]; rfl

theorem decode_lkp {w : Word} (h : opField w = 0xA#4) : decode w =
    checkMbz (w.extractLsb' 8 4) (.lkp (w.extractLsb' 0 8)) := by
  unfold decode; rw [h]; rfl

theorem decode_trd {w : Word} (h : opField w = 0xB#4) : decode w =
    if w.extractLsb' 9 3 = 0#3 then
      if (Instr.trd (.ofCode (w.extractLsb' 8 1)) (w.extractLsb' 4 4) (w.extractLsb' 0 4)).wellFormed then
        .ok (.trd (.ofCode (w.extractLsb' 8 1)) (w.extractLsb' 4 4) (w.extractLsb' 0 4))
      else .error .outsideTable
    else .error .mustBeZero := by
  unfold decode; rw [h]; rfl

theorem decode_reserved {w : Word} (h : opField w ∈ [0x0#4, 0xC#4, 0xD#4, 0xE#4, 0xF#4]) :
    decode w = .error .reservedOpcode := by
  simp only [List.mem_cons, List.not_mem_nil, or_false] at h
  obtain h | h | h | h | h := h <;> (unfold decode; rw [h]; rfl)

/-- Every opcode is one of the eleven or reserved. -/
theorem opField_cases (w : Word) :
    opField w = 0x1#4 ∨ opField w = 0x2#4 ∨ opField w = 0x3#4 ∨ opField w = 0x4#4 ∨ opField w = 0x5#4 ∨
    opField w = 0x6#4 ∨ opField w = 0x7#4 ∨ opField w = 0x8#4 ∨ opField w = 0x9#4 ∨ opField w = 0xA#4 ∨
    opField w = 0xB#4 ∨ opField w ∈ [0x0#4, 0xC#4, 0xD#4, 0xE#4, 0xF#4] := by
  generalize opField w = v
  revert v
  decide

/-- The mbz check by cases. -/
theorem checkMbz_eq_ok {n : Nat} {m : BitVec n} {i j : Instr} : checkMbz m i = .ok j ↔ m = 0 ∧ i = j := by
  unfold checkMbz
  split <;> simp_all

theorem checkMbz_of_ne {n : Nat} {m : BitVec n} (i : Instr) (h : m ≠ 0) : checkMbz m i = .error .mustBeZero := if_neg h

theorem checkMbz_of_eq {n : Nat} {m : BitVec n} (i : Instr) (h : m = 0) : checkMbz m i = .ok i := if_pos h

end Sys2Proof

namespace Sys2Proof.Machine

@[simp] theorem respond_status (st : Status) (a : Nibble) (d : Byte) : (respond st a d).extractLsb' 12 4 = st.code := by
  rw [respond, extract_high _ _ _ _ (by decide), extract_high _ _ _ _ (by decide)]
  exact extract_whole _

@[simp] theorem respond_aux (st : Status) (a : Nibble) (d : Byte) : (respond st a d).extractLsb' 8 4 = a := by
  rw [respond, extract_high _ _ _ _ (by decide)]
  exact extract_low _ _

@[simp] theorem respond_data (st : Status) (a : Nibble) (d : Byte) : (respond st a d).extractLsb' 0 8 = d :=
  extract_low _ _

theorem Status.code_le (st : Status) : st.code ≤ 4#4 := by cases st <;> decide

end Sys2Proof.Machine
end

