-- ==== Sys2Proof/Laws/Memory.lean ====
section
/-! SUPPORT. The laws of the space `UM`: read after write, the canonical form, and that in it equal contents are
equal lists. -/

namespace Sys2Proof.Machine

@[simp] theorem Memory.read_nil (a : Nat) : Memory.read [] a = Memory.unlisted := rfl

theorem Memory.read_entry (k : Nat) (v : Byte) (rest : Memory) (a : Nat) :
    Memory.read ((k, v) :: rest) a = if k = a then v else Memory.read rest a := rfl

/-- Below the first address of a canonical list nothing is listed. -/
theorem Memory.read_below {lo a : Nat} {m : Memory} (h : Memory.wfFrom lo m = true) (ha : a < lo) :
    Memory.read m a = Memory.unlisted := by
  induction m generalizing lo with
  | nil => rfl
  | cons kv rest ih =>
    obtain ⟨k, v⟩ := kv
    simp only [Memory.wfFrom, Bool.and_eq_true, decide_eq_true_eq] at h
    rw [Memory.read_entry, if_neg (by omega)]
    exact ih h.2 (by omega)

theorem Memory.wfFrom_mono {lo lo' : Nat} {m : Memory} (h : Memory.wfFrom lo m = true) (hl : lo' ≤ lo) :
    Memory.wfFrom lo' m = true := by
  cases m with
  | nil => rfl
  | cons kv rest =>
    obtain ⟨k, v⟩ := kv
    simp only [Memory.wfFrom, Bool.and_eq_true, decide_eq_true_eq] at h ⊢
    exact ⟨⟨⟨by omega, h.1.1.2⟩, h.1.2⟩, h.2⟩

theorem Memory.wfFrom_cons {lo a : Nat} {v : Byte} {rest : Memory} (h : Memory.wfFrom (a + 1) rest = true)
    (hl : lo ≤ a) (ha : a < Config.umapDepth) : Memory.wfFrom lo (Memory.cons a v rest) = true := by
  unfold Memory.cons
  split
  · exact Memory.wfFrom_mono h (by omega)
  · simp [Memory.wfFrom, *]

/-- A store keeps the canonical form. -/
theorem Memory.wfFrom_write {lo a : Nat} {v : Byte} {m : Memory} (h : Memory.wfFrom lo m = true) (hl : lo ≤ a)
    (ha : a < Config.umapDepth) : Memory.wfFrom lo (Memory.write m a v) = true := by
  induction m generalizing lo with
  | nil => exact Memory.wfFrom_cons rfl hl ha
  | cons kv rest ih =>
    obtain ⟨k, x⟩ := kv
    have h' := h
    simp only [Memory.wfFrom, Bool.and_eq_true, decide_eq_true_eq] at h'
    unfold Memory.write
    split
    · refine Memory.wfFrom_cons ?_ hl ha
      simp only [Memory.wfFrom, Bool.and_eq_true, decide_eq_true_eq]
      exact ⟨⟨⟨by omega, h'.1.1.2⟩, h'.1.2⟩, h'.2⟩
    · split
      · next hk => exact Memory.wfFrom_cons (hk ▸ h'.2) hl ha
      · simp only [Memory.wfFrom, Bool.and_eq_true, decide_eq_true_eq]
        exact ⟨h'.1, ih h'.2 (by omega)⟩

theorem Memory.wf_umWrite {m : Memory} (i : Nibble) (v : Byte) (h : Memory.wf m = true) :
    Memory.wf (umWrite m i v) = true :=
  Memory.wfFrom_write h (Nat.zero_le _) i.isLt

theorem Memory.read_cons {a b : Nat} {v : Byte} {rest : Memory} (h : b = a → Memory.read rest a = Memory.unlisted) :
    Memory.read (Memory.cons a v rest) b = if b = a then v else Memory.read rest b := by
  unfold Memory.cons
  split
  · split
    · next hv hb => rw [hb, h hb, hv]
    · rfl
  · rw [Memory.read_entry]
    simp only [eq_comm]

theorem Memory.read_cons_ne {a b : Nat} (v : Byte) (rest : Memory) (h : b ≠ a) :
    Memory.read (Memory.cons a v rest) b = Memory.read rest b := by
  unfold Memory.cons
  split
  · rfl
  · rw [Memory.read_entry, if_neg (fun hab => h hab.symm)]

/-- A store leaves every other address alone, in any list. -/
theorem Memory.read_write_ne {a b : Nat} (v : Byte) (m : Memory) (h : b ≠ a) :
    Memory.read (Memory.write m a v) b = Memory.read m b := by
  induction m with
  | nil => exact Memory.read_cons_ne v [] h
  | cons kv rest ih =>
    obtain ⟨k, x⟩ := kv
    unfold Memory.write
    split
    · exact Memory.read_cons_ne v _ h
    · split
      · next hk => rw [Memory.read_cons_ne v _ h, Memory.read_entry, if_neg (by omega)]
      · rw [Memory.read_entry, Memory.read_entry, ih]

/-- Read after write, in a canonical list. -/
theorem Memory.read_write {lo a : Nat} {v : Byte} {m : Memory} (h : Memory.wfFrom lo m = true) (b : Nat) :
    Memory.read (Memory.write m a v) b = if b = a then v else Memory.read m b := by
  induction m generalizing lo with
  | nil => exact Memory.read_cons (fun _ => rfl)
  | cons kv rest ih =>
    obtain ⟨k, x⟩ := kv
    have h' := h
    simp only [Memory.wfFrom, Bool.and_eq_true, decide_eq_true_eq] at h'
    unfold Memory.write
    split
    · next hk =>
      refine Memory.read_cons (fun _ => ?_)
      rw [Memory.read_entry, if_neg (by omega)]
      exact Memory.read_below h'.2 (by omega)
    · split
      · next hk =>
        rw [Memory.read_cons (fun _ => Memory.read_below h'.2 (by omega)), Memory.read_entry]
        split
        · rfl
        · rw [if_neg (by omega)]
      · next hk hne =>
        rw [Memory.read_entry, Memory.read_entry, ih h'.2]
        split
        · next hb => rw [if_neg (by omega)]
        · rfl

theorem umRead_umWrite_self {m : Memory} (h : Memory.wf m = true) (i : Nibble) (v : Byte) :
    umRead (umWrite m i v) i = v := by
  rw [umRead, umWrite, Memory.read_write h, if_pos rfl]

theorem umRead_umWrite_ne (m : Memory) {i j : Nibble} (v : Byte) (h : j ≠ i) :
    umRead (umWrite m i v) j = umRead m j :=
  Memory.read_write_ne v m (fun hij => h (BitVec.eq_of_toNat_eq hij))

end Sys2Proof.Machine
end

