-- ==== Sys2Proof/Laws/Registry.lean ====
section
/-! SUPPORT. What the registry answers: the lookup by cases, the range of table reads. -/

namespace Sys2Proof.Machine

theorem lookup_eq_some {n : Byte} {t : TableId} :
    lookup n = some t ↔ n = 10#8 ∧ t = .table10 ∨ n = 16#8 ∧ t = .table16 := by
  unfold lookup
  split
  · next h => subst h; cases t <;> simp
  · next h =>
    split
    · next h' => subst h'; cases t <;> simp
    · next h' => simp [h, h']

theorem lookup_eq_none {n : Byte} : lookup n = none ↔ n ≠ 10#8 ∧ n ≠ 16#8 := by
  unfold lookup
  split
  · next h => simp [h]
  · next h =>
    split
    · next h' => simp [h']
    · next h' => simp [h, h']

/-- A table of a registered size has that size. -/
theorem tableSize_of_lookup {n : Byte} {t : TableId} (h : lookup n = some t) : tableSize t = n.toNat := by
  obtain ⟨rfl, rfl⟩ | ⟨rfl, rfl⟩ := lookup_eq_some.mp h <;> rfl

theorem tableSize_le (t : TableId) : tableSize t ≤ 16 := by cases t <;> decide

/-- A read inside the table gives the entry (R68). -/
theorem tabRead_inside {T : Tables} {t : TableId} {r c : Nibble} (hr : r.toNat < tableSize t) (hc : c.toNat < tableSize t) :
    tabRead T t r c = some (T t r c) := if_pos ⟨hr, hc⟩

theorem tabRead_eq_some {T : Tables} {t : TableId} {r c v : Nibble} :
    tabRead T t r c = some v ↔ r.toNat < tableSize t ∧ c.toNat < tableSize t ∧ T t r c = v := by
  unfold tabRead
  split
  · next h => simp [h.1, h.2]
  · next h => simp only [reduceCtorEq, false_iff]; exact fun h' => h ⟨h'.1, h'.2.1⟩

theorem tabRead_eq_none {T : Tables} {t : TableId} {r c : Nibble} :
    tabRead T t r c = none ↔ ¬ (r.toNat < tableSize t ∧ c.toNat < tableSize t) := by
  unfold tabRead
  split <;> simp_all

/-- An entry of a table lies below the table's size. -/
theorem tableEntry_lt {t : TableId} {r c : Nibble} (hr : r.toNat < tableSize t) (hc : c.toNat < tableSize t) :
    (tableEntry t r c).toNat < tableSize t := by
  cases t with
  | table10 =>
    have key : ∀ r c : Nibble, r.toNat < 10 → c.toNat < 10 → (tableEntry .table10 r c).toNat < 10 := by decide
    exact key r c hr hc
  | table16 => exact BitVec.isLt _

/-- The diagonal of a table is zero. -/
theorem tableEntry_diag {t : TableId} {r : Nibble} (hr : r.toNat < tableSize t) : tableEntry t r r = 0 := by
  cases t with
  | table10 =>
    have key : ∀ r : Nibble, r.toNat < 10 → tableEntry .table10 r r = 0 := by decide
    exact key r hr
  | table16 =>
    have key : ∀ r : Nibble, tableEntry .table16 r r = 0 := by decide
    exact key r

end Sys2Proof.Machine
end

