-- ==== Sys2Proof/Laws/Operands.lean ====
section
/-! SUPPORT. What the alphabets answer. -/

namespace Sys2Proof.Machine

theorem digitIndex_lt {b : Byte} {i : Nibble} (h : digitIndex b = some i) : i.toNat < 10 := by
  have key : ∀ b : Byte, ∀ i ∈ digitIndex b, i.toNat < 10 := by decide
  exact key b i h

/-- The entries of the map that the priority search looks at are all of them, in rising order. -/
theorem mem_mapIndices (i : Nibble) : i ∈ mapIndices := by
  revert i; decide

theorem userMatches_iff {e : Engine} {b : Byte} {i : Nibble} :
    userMatches e b i = true ↔ i.toNat < e.usize.toNat ∧ umRead e.um i = b := by
  simp [userMatches]

theorem userIndex_eq_none {e : Engine} {b : Byte} :
    userIndex e b = none ↔ ∀ j : Nibble, j.toNat < e.usize.toNat → umRead e.um j ≠ b := by
  unfold userIndex
  rw [List.find?_eq_none]
  constructor
  · intro h j hj hb
    exact h j (mem_mapIndices j) (userMatches_iff.mpr ⟨hj, hb⟩)
  · intro h j _ hm
    obtain ⟨hj, hb⟩ := userMatches_iff.mp hm
    exact h j hj hb

/-- Where the search succeeds: a matching index. -/
theorem userIndex_matches {e : Engine} {b : Byte} {i : Nibble} (h : userIndex e b = some i) :
    i.toNat < e.usize.toNat ∧ umRead e.um i = b :=
  userMatches_iff.mp (List.find?_some h)

theorem mapIndices_rising : mapIndices.Pairwise (fun i j => i.toNat < j.toNat) := by decide

/-- The search stops at the least matching index. -/
theorem userIndex_least {e : Engine} {b : Byte} {i j : Nibble} (h : userIndex e b = some i)
    (hj : j.toNat < e.usize.toNat) (hb : umRead e.um j = b) : i.toNat ≤ j.toNat := by
  obtain ⟨-, before, after, hsplit, hbefore⟩ := List.find?_eq_some_iff_append.mp h
  have hmem := mem_mapIndices j
  rw [hsplit, List.mem_append, List.mem_cons] at hmem
  rcases hmem with hj' | rfl | hj'
  · have := hbefore j hj'
    rw [userMatches_iff.mpr ⟨hj, hb⟩] at this
    simp at this
  · exact Nat.le_refl _
  · have hr := mapIndices_rising
    rw [hsplit, List.pairwise_append] at hr
    exact Nat.le_of_lt ((List.pairwise_cons.mp hr.2.1).1 j hj')

theorem userIndex_eq_some {e : Engine} {b : Byte} {i : Nibble} :
    userIndex e b = some i ↔ i.toNat < e.usize.toNat ∧ umRead e.um i = b ∧
      ∀ j : Nibble, j.toNat < e.usize.toNat → umRead e.um j = b → i.toNat ≤ j.toNat := by
  constructor
  · intro h
    exact ⟨(userIndex_matches h).1, (userIndex_matches h).2, fun j hj hb => userIndex_least h hj hb⟩
  · rintro ⟨hi, hb, hleast⟩
    cases h : userIndex e b with
    | none => exact absurd hb (userIndex_eq_none.mp h i hi)
    | some k =>
      obtain ⟨hk, hkb⟩ := userIndex_matches h
      have := userIndex_least h hi hb
      have := hleast k hk hkb
      exact congrArg some (BitVec.eq_of_toNat_eq (by omega))

/-- An accepted symbol has an index below the alphabet's size (R80). -/
theorem fromSymbol_lt {e : Engine} {a : Alphabet} {b : Byte} {i : Nibble} (h : fromSymbol e a b = some i) :
    i.toNat < (alphabetSize e a).toNat := by
  cases a with
  | digit => exact digitIndex_lt h
  | upperHex => exact i.isLt
  | lowerHex => exact i.isLt
  | user => exact (userIndex_matches h).1

theorem toSymbol_inside {e : Engine} {a : Alphabet} {i : Nibble} (h : i.toNat < (alphabetSize e a).toNat) :
    toSymbol e a i = some (symbolByte e a i) := if_pos h

theorem toSymbol_eq_none {e : Engine} {a : Alphabet} {i : Nibble} :
    toSymbol e a i = none ↔ ¬ i.toNat < (alphabetSize e a).toNat := by
  unfold toSymbol
  split <;> simp_all

/-! An alphabet sees of the engine only the registers of the user alphabet. -/

theorem alphabetSize_congr {e e' : Engine} (a : Alphabet) (h : e.usize = e'.usize) :
    alphabetSize e a = alphabetSize e' a := by
  cases a <;> first | rfl | exact h

theorem userMatches_congr {e e' : Engine} (h : e.usize = e'.usize) (hm : e.um = e'.um) :
    userMatches e = userMatches e' := by
  funext b i
  simp only [userMatches, h, hm]

theorem fromSymbol_congr {e e' : Engine} (a : Alphabet) (b : Byte) (h : e.usize = e'.usize) (hm : e.um = e'.um) :
    fromSymbol e a b = fromSymbol e' a b := by
  cases a <;> simp only [fromSymbol, userIndex, userMatches_congr h hm]

theorem symbolByte_congr {e e' : Engine} (a : Alphabet) (i : Nibble) (hm : e.um = e'.um) :
    symbolByte e a i = symbolByte e' a i := by
  cases a <;> simp only [symbolByte, hm]

theorem alphabetFns_congr {e e' : Engine} (a : Alphabet) (h : e.usize = e'.usize) (hm : e.um = e'.um) :
    alphabetFns e a = alphabetFns e' a := by
  simp only [alphabetFns, AlphabetFns.mk.injEq]
  exact ⟨alphabetSize_congr a h, funext fun i => symbolByte_congr a i hm, funext fun b => fromSymbol_congr a b h hm⟩

end Sys2Proof.Machine
end

