-- ==== Sys2Proof/Laws/Exec.lean ====
section
/-! SUPPORT. Everything a command can do to the engine, said once: `exec_effect`; and what one clock can do:
`step_cases`. Invariants are derived from these. -/

namespace Sys2Proof.Machine

/-- The phase gate by cases (R112). -/
theorem foldGate_eq_next {s t : State} {body : Host.Outcome State Fault Refusal} (h : foldGate s body = .next t) :
    (s.engine.phase ≠ .active ∧ ∃ r, t = s.answer s.engine r) ∨ (s.engine.phase = .active ∧ body = .next t) := by
  unfold foldGate at h
  split at h
  · next hp => cases h; exact .inl ⟨by rw [hp]; decide, _, rfl⟩
  · next hp => cases h; exact .inl ⟨by rw [hp]; decide, _, rfl⟩
  · next hp => cases h; exact .inl ⟨by rw [hp]; decide, _, rfl⟩
  · next hp => exact .inr ⟨hp, h⟩

theorem foldGate_active {s : State} (body : Host.Outcome State Fault Refusal) (h : s.engine.phase = .active) :
    foldGate s body = body := by
  unfold foldGate; rw [h]

/-- What a command makes of the engine, guards included. -/
inductive Effect (T : Tables) : Instr → Engine → Engine → Prop where
  /-- A command that leaves the engine as it is. -/
  | keep (i : Instr) (e : Engine) (hsel : ∀ a, i ≠ .sel a) (husz : ∀ n, i ≠ .usz n) (hump : ∀ x b, i ≠ .ump x b)
      (hact : e.phase = .active → (∀ b, i ≠ .put b) ∧ i ≠ .app) : Effect T i e e
  | openFold (a : Alphabet) (e : Engine) (t : TableId) (h : lookup (alphabetSize e a) = some t) :
      Effect T (.sel a) e (e.openFold a t)
  | sizeError (a : Alphabet) (e : Engine) (h : lookup (alphabetSize e a) = none) :
      Effect T (.sel a) e (e.recordError .unsupportedSize a (alphabetSize e a))
  | symbolError (b : Byte) (e : Engine) (ha : e.phase = .active) (h : fromSymbol e e.alpha b = none) :
      Effect T (.put b) e (e.recordError .invalidSymbol e.alpha b)
  | symbol (b : Byte) (e : Engine) (x v : Nibble) (ha : e.phase = .active) (h : fromSymbol e e.alpha b = some x)
      (hv : tabRead T e.tsel e.acc x = some v) : Effect T (.put b) e (e.setAcc v)
  | append (e : Engine) (v : Nibble) (ha : e.phase = .active) (hv : tabRead T e.tsel e.acc e.acc = some v) :
      Effect T .app e (e.setAcc v)
  | size (n : Byte) (e : Engine) : Effect T (.usz n) e (e.setUsize n).closeFold
  | entry (x : Nibble) (b : Byte) (e : Engine) : Effect T (.ump x b) e (e.setUm x b).closeFold

/-- A command that completes gives one answer and has one of the effects. -/
theorem execOn_effect {T : Tables} {i : Instr} {s t : State} (h : execOn T i s = .next t) :
    ∃ e r, t = s.answer e r ∧ Effect T i s.engine e := by
  cases i with
  | sel a =>
    simp only [execOn, execSel] at h
    split at h
    · next hl => cases h; exact ⟨_, _, rfl, .openFold a _ _ hl⟩
    · next hl => cases h; exact ⟨_, _, rfl, .sizeError a _ hl⟩
  | put b =>
    obtain ⟨hp, r, rfl⟩ | ⟨ha, h⟩ := foldGate_eq_next h
    · exact ⟨_, _, rfl, .keep _ _ nofun nofun nofun (fun ha => absurd ha hp)⟩
    · split at h
      · next hf => cases h; exact ⟨_, _, rfl, .symbolError b _ ha hf⟩
      · next x hf =>
        split at h
        · cases h
        · next v hv => cases h; exact ⟨_, _, rfl, .symbol b _ x v ha hf hv⟩
  | fin =>
    obtain ⟨hp, r, rfl⟩ | ⟨ha, h⟩ := foldGate_eq_next h
    · exact ⟨_, _, rfl, .keep _ _ nofun nofun nofun (fun _ => ⟨nofun, nofun⟩)⟩
    · cases h; exact ⟨_, _, rfl, .keep _ _ nofun nofun nofun (fun _ => ⟨nofun, nofun⟩)⟩
  | chk =>
    obtain ⟨hp, r, rfl⟩ | ⟨ha, h⟩ := foldGate_eq_next h
    · exact ⟨_, _, rfl, .keep _ _ nofun nofun nofun (fun _ => ⟨nofun, nofun⟩)⟩
    · split at h
      · cases h
      · cases h; exact ⟨_, _, rfl, .keep _ _ nofun nofun nofun (fun _ => ⟨nofun, nofun⟩)⟩
  | val =>
    obtain ⟨hp, r, rfl⟩ | ⟨ha, h⟩ := foldGate_eq_next h
    · exact ⟨_, _, rfl, .keep _ _ nofun nofun nofun (fun _ => ⟨nofun, nofun⟩)⟩
    · cases h; exact ⟨_, _, rfl, .keep _ _ nofun nofun nofun (fun _ => ⟨nofun, nofun⟩)⟩
  | app =>
    obtain ⟨hp, r, rfl⟩ | ⟨ha, h⟩ := foldGate_eq_next h
    · exact ⟨_, _, rfl, .keep _ _ nofun nofun nofun (fun ha => absurd ha hp)⟩
    · split at h
      · cases h
      · split at h
        · cases h
        · next v hv => cases h; exact ⟨_, _, rfl, .append _ v ha hv⟩
  | sts => cases h; exact ⟨_, _, rfl, .keep _ _ nofun nofun nofun (fun _ => ⟨nofun, nofun⟩)⟩
  | usz n => cases h; exact ⟨_, _, rfl, .size n _⟩
  | ump x b => cases h; exact ⟨_, _, rfl, .entry x b _⟩
  | lkp n =>
    simp only [execOn, execLkp] at h
    split at h <;> cases h <;> exact ⟨_, _, rfl, .keep _ _ nofun nofun nofun (fun _ => ⟨nofun, nofun⟩)⟩
  | trd x r c =>
    simp only [execOn, execTrdOn] at h
    split at h <;> cases h <;> exact ⟨_, _, rfl, .keep _ _ nofun nofun nofun (fun _ => ⟨nofun, nofun⟩)⟩

/-- The commands of the hardware are those of the block at the default tables. -/
theorem exec_eq_execOn (i : Instr) (s : State) : exec i s = execOn hardwareTables i s := by
  cases i <;> rfl

theorem step_eq_stepOn (s : State) : step s = stepOn hardwareTables s := by
  have h : exec = execOn hardwareTables := funext fun i => funext fun s => exec_eq_execOn i s
  rw [step, stepOn, h]

theorem exec_effect {i : Instr} {s t : State} (h : exec i s = .next t) :
    ∃ e r, t = s.answer e r ∧ Effect hardwareTables i s.engine e :=
  execOn_effect (exec_eq_execOn i s ▸ h)

/-- What one clock can do, by what the host drives. -/
theorem stepBy_cases {ex : Instr → State → Host.Outcome State Fault Refusal} {s t : State} (h : stepBy ex s = .next t) :
    (s.inbox = [] ∧ t = s.idleClock) ∨
    ∃ p rest, s.inbox = p :: rest ∧
      ((p.rst = true ∧ t = State.takeReset { s with inbox := rest }) ∨
       (p.rst = false ∧ p.cmdValid = false ∧ t = State.idleClock { s with inbox := rest }) ∨
       (p.rst = false ∧ p.cmdValid = true ∧ ∃ e, decode p.cmd = .error e ∧ t = State.answerIllegal { s with inbox := rest }) ∨
       (p.rst = false ∧ p.cmdValid = true ∧ ∃ i, decode p.cmd = .ok i ∧ ex i { s with inbox := rest } = .next t)) := by
  unfold stepBy at h
  split at h
  · next hn => cases h; exact .inl ⟨hn, rfl⟩
  · next p rest hc =>
    refine .inr ⟨p, rest, hc, ?_⟩
    unfold clockBy at h
    split at h
    · next hr => cases h; exact .inl ⟨hr, rfl⟩
    · next hr =>
      have hr : p.rst = false := by simpa using hr
      split at h
      · next hv =>
        unfold runCommandBy at h
        split at h
        · next i hi => exact .inr (.inr (.inr ⟨hr, hv, i, hi, h⟩))
        · next e he => cases h; exact .inr (.inr (.inl ⟨hr, hv, e, he, rfl⟩))
      · next hv => cases h; exact .inr (.inl ⟨hr, by simpa using hv, rfl⟩)

/-- A presented word that decodes is executed. -/
theorem stepBy_command {ex : Instr → State → Host.Outcome State Fault Refusal} {s : State} {p : PortIn}
    {rest : List PortIn} {i : Instr} (hi : s.inbox = p :: rest)
    (hr : p.rst = false) (hv : p.cmdValid = true) (hd : decode p.cmd = .ok i) :
    stepBy ex s = ex i { s with inbox := rest } := by
  simp [stepBy, hi, clockBy, hr, hv, runCommandBy, hd]

/-- What the engine is after a step: as before, reset, or what a command made of it. -/
theorem stepOn_engine {T : Tables} {s t : State} (h : stepOn T s = .next t) :
    t.engine = s.engine ∨ t.engine = Engine.reset ∨ ∃ i, Effect T i s.engine t.engine := by
  obtain ⟨-, rfl⟩ | ⟨p, rest, -, ⟨-, rfl⟩ | ⟨-, -, rfl⟩ | ⟨-, -, e, -, rfl⟩ | ⟨-, -, i, -, hx⟩⟩ := stepBy_cases h
  · exact .inl rfl
  · exact .inr (.inl rfl)
  · exact .inl rfl
  · exact .inl rfl
  · obtain ⟨e, r, rfl, he⟩ := execOn_effect hx
    exact .inr (.inr ⟨i, he⟩)

theorem step_engine {s t : State} (h : step s = .next t) :
    t.engine = s.engine ∨ t.engine = Engine.reset ∨ ∃ i, Effect hardwareTables i s.engine t.engine :=
  stepOn_engine (step_eq_stepOn s ▸ h)

/-- In an open fold the accumulator and every accepted index lie inside the selected table (R22 item 3, R68). -/
theorem Engine.Inv.tableSize_eq {e : Engine} (h : e.Inv) (ha : e.phase = .active) :
    tableSize e.tsel = (alphabetSize e e.alpha).toNat := by
  obtain ⟨⟨hs, ht⟩ | ⟨hs, ht⟩, -⟩ := h.openFold ha <;> rw [hs, ht] <;> rfl

theorem Engine.Inv.acc_lt {e : Engine} (h : e.Inv) (ha : e.phase = .active) : e.acc.toNat < tableSize e.tsel := by
  rw [h.tableSize_eq ha]; exact (h.openFold ha).2

end Sys2Proof.Machine
end

