-- ==== Sys2Proof/Laws/PerInstr.lean ====
section
/-! SUPPORT. Statements about every command as syntax, one lemma per constructor. `EncodingRow`: the word of a command is
an instance of the command's own row of the opcode map, for every operand (spec/30_encoding.md R42). -/

namespace Sys2Proof.Laws.EncodingRow

/-- The encoded word meets its row's mask and pattern. -/
def Statement (i : Instr) : Prop := i.row.matches (encode i) = true

/-- The row test as an equation between words. -/
theorem of_eq {row : OpcodeRow} {w : Word} (h : w &&& row.mask = row.pattern) : row.matches w = true :=
  beq_iff_eq.mpr h

theorem sel (a : Alphabet) : Statement (.sel a) := by cases a <;> rfl

theorem put (b : Byte) : Statement (.put b) := by
  refine of_eq ?_
  show (0x2#4 ++ 0#4 ++ b : Word) &&& (0xF#4 ++ 0xF#4 ++ 0#8) = 0x2#4 ++ 0#4 ++ 0#8
  rw [and_append, and_append, BitVec.and_zero]; rfl

theorem fin : Statement .fin := rfl

theorem chk : Statement .chk := rfl

theorem val : Statement .val := rfl

theorem app : Statement .app := rfl

theorem sts : Statement .sts := rfl

theorem usz (n : Byte) : Statement (.usz n) := by
  refine of_eq ?_
  show (0x8#4 ++ 0#4 ++ n : Word) &&& (0xF#4 ++ 0xF#4 ++ 0#8) = 0x8#4 ++ 0#4 ++ 0#8
  rw [and_append, and_append, BitVec.and_zero]; rfl

theorem ump (x : Nibble) (b : Byte) : Statement (.ump x b) := by
  refine of_eq ?_
  show (0x9#4 ++ x ++ b : Word) &&& (0xF#4 ++ 0#4 ++ 0#8) = 0x9#4 ++ 0#4 ++ 0#8
  rw [and_append, and_append, BitVec.and_zero, BitVec.and_zero]; rfl

theorem lkp (n : Byte) : Statement (.lkp n) := by
  refine of_eq ?_
  show (0xA#4 ++ 0#4 ++ n : Word) &&& (0xF#4 ++ 0xF#4 ++ 0#8) = 0xA#4 ++ 0#4 ++ 0#8
  rw [and_append, and_append, BitVec.and_zero]; rfl

theorem trd (t : TableId) (r c : Nibble) : Statement (.trd t r c) := by
  refine of_eq ?_
  show (0xB#4 ++ 0#3 ++ t.code ++ r ++ c : Word) &&& (0xF#4 ++ 7#3 ++ 0#1 ++ 0#4 ++ 0#4) =
    0xB#4 ++ 0#3 ++ 0#1 ++ 0#4 ++ 0#4
  rw [and_append, and_append, and_append, and_append, BitVec.and_zero, BitVec.and_zero, BitVec.and_zero]; rfl

end Sys2Proof.Laws.EncodingRow
end

