-- ==== Sys2Proof/Laws/Pure.lean ====
section
/-! SUPPORT. The loop of `fold` (spec/42_fold_engine.md R100): how it runs over a concatenation, where its result
lies, and that different states stay different (the Latin columns of R62). -/

namespace Sys2Proof.Machine

/-- The loop over `s ++ u` goes on from where `s` ended. -/
theorem foldFrom_append (T : Table) (A : AlphabetFns) (acc : Nibble) (s u : List Byte) :
    foldFrom T A acc (s ++ u) =
      match foldFrom T A acc s with
      | .ok k => foldFrom T A k u
      | .error e => .error e := by
  induction s generalizing acc with
  | nil => rfl
  | cons b rest ih =>
    simp only [List.cons_append, foldFrom]
    cases A.fromSymbol b with
    | none => rfl
    | some x => exact ih _

/-- The loop ends without error exactly when every byte is in the alphabet. -/
theorem foldFrom_isOk (T : Table) (A : AlphabetFns) (acc : Nibble) (s : List Byte) :
    (∃ k, foldFrom T A acc s = .ok k) ↔ ∀ b ∈ s, (A.fromSymbol b).isSome = true := by
  induction s generalizing acc with
  | nil => simp [foldFrom]
  | cons b rest ih =>
    simp only [foldFrom, List.forall_mem_cons]
    cases A.fromSymbol b with
    | none => simp
    | some x => simpa using ih (T acc x)

/-- The states of the loop stay inside a table of the alphabet's size. -/
theorem foldFrom_lt {n : Nat} {T : Table} {A : AlphabetFns} (hT : IsLatin n T)
    (hA : ∀ b x, A.fromSymbol b = some x → x.toNat < n) {acc k : Nibble} {s : List Byte} (hacc : acc.toNat < n)
    (h : foldFrom T A acc s = .ok k) : k.toNat < n := by
  induction s generalizing acc with
  | nil => cases h; exact hacc
  | cons b rest ih =>
    unfold foldFrom at h
    split at h
    · cases h
    · next x hx => exact ih (hT.closed _ _ hacc (hA b x hx)) h

/-- Two entries of one column of a Latin square differ. -/
theorem IsLatin.col_inj {n : Nat} {T : Table} (hT : IsLatin n T) {a a' x : Nibble} (ha : a.toNat < n)
    (ha' : a'.toNat < n) (hx : x.toNat < n) (h : T a x = T a' x) : a = a' := by
  obtain ⟨r, -, -, hr⟩ := hT.col x (T a x) hx (hT.closed _ _ ha hx)
  rw [hr a ha rfl, hr a' ha' h.symm]

/-- Two entries of one row of a Latin square differ. -/
theorem IsLatin.row_inj {n : Nat} {T : Table} (hT : IsLatin n T) {a x x' : Nibble} (ha : a.toNat < n)
    (hx : x.toNat < n) (hx' : x'.toNat < n) (h : T a x = T a x') : x = x' := by
  obtain ⟨r, -, -, hr⟩ := hT.row a (T a x) ha (hT.closed _ _ ha hx)
  rw [hr x hx rfl, hr x' hx' h.symm]

/-- Loops over the same symbols from different states end in different states. -/
theorem foldFrom_inj {n : Nat} {T : Table} {A : AlphabetFns} (hT : IsLatin n T)
    (hA : ∀ b x, A.fromSymbol b = some x → x.toNat < n) {acc acc' k : Nibble} {s : List Byte} (hacc : acc.toNat < n)
    (hacc' : acc'.toNat < n) (h : foldFrom T A acc s = .ok k) (h' : foldFrom T A acc' s = .ok k) : acc = acc' := by
  induction s generalizing acc acc' with
  | nil => cases h; cases h'; rfl
  | cons b rest ih =>
    unfold foldFrom at h h'
    cases hx : A.fromSymbol b with
    | none => rw [hx] at h; cases h
    | some x =>
      rw [hx] at h h'
      have hxn := hA b x hx
      exact hT.col_inj hacc hacc' hxn (ih (hT.closed _ _ hacc hxn) (hT.closed _ _ hacc' hxn) h h')

end Sys2Proof.Machine
end

