-- ==== Sys2Proof/Tests/Slice0.lean ====
section
/-! SUPPORT. The model's own tests: ill-formed terms, words written out from the encodings of spec/30_encoding.md R41,
single steps with the results of spec/95_test_vectors.md, and for every statement with premises a state and operands
that meet them. -/

namespace Sys2Proof.Tests

open Sys2Proof.Machine

/-! ## The check on commands -/

theorem test_illformed_row : (Instr.trd .table10 10 0).wellFormed = false := by decide

theorem test_illformed_column : (Instr.trd .table10 0 10).wellFormed = false := by decide

theorem test_wellformed_corners :
    (Instr.trd .table10 9 9).wellFormed = true ∧ (Instr.trd .table16 15 15).wellFormed = true := by decide

/-! ## Words written out bit by bit (R41, R42; spec/95_test_vectors.md 2.1) -/

theorem test_decode_sel : decode 0b0001000000000010#16 = .ok (.sel .lowerHex) := by decide

theorem test_decode_put : decode 0b0010000001000001#16 = .ok (.put 0x41) := by decide

theorem test_decode_fin : decode 0b0011000000000000#16 = .ok .fin := by decide

theorem test_decode_chk : decode 0b0100000000000000#16 = .ok .chk := by decide

theorem test_decode_val : decode 0b0101000000000000#16 = .ok .val := by decide

theorem test_decode_app : decode 0b0110000000000000#16 = .ok .app := by decide

theorem test_decode_sts : decode 0b0111000000000000#16 = .ok .sts := by decide

theorem test_decode_usz : decode 0b1000000000010000#16 = .ok (.usz 16) := by decide

theorem test_decode_ump : decode 0b1001101001100001#16 = .ok (.ump 10 0x61) := by decide

theorem test_decode_lkp : decode 0b1010000000001010#16 = .ok (.lkp 10) := by decide

theorem test_decode_trd : decode 0b1011000100101010#16 = .ok (.trd .table16 2 10) := by decide

theorem test_decode_reserved :
    [0x0000#16, 0x0FFF#16, 0xC000#16, 0xD123#16, 0xE000#16, 0xFFFF#16].map decode =
      List.replicate 6 (.error .reservedOpcode) := by decide

theorem test_decode_mbz :
    [0x1004#16, 0x1100#16, 0x2100#16, 0x3001#16, 0x4800#16, 0x5001#16, 0x6400#16, 0x7FFF#16, 0x8100#16, 0xA10A#16,
      0xB200#16, 0xB800#16].map decode = List.replicate 12 (.error .mustBeZero) := by decide

theorem test_decode_outside_table :
    [0xB09A#16, 0xB0A0#16, 0xB0FF#16, 0xB00A#16].map decode = List.replicate 4 (.error .outsideTable) := by decide

/-- The host's numbering: a table word of the row's pattern with zero operands. -/
theorem test_table_word : decodeTableWord 16 0xB000 = some (.trd .table10 0 0) ∧ decodeTableWord 16 0 = none := by
  decide

/-! ## The assembler (R49, R50) -/

/-- `UMP 9, 'J'` = 0x994A (R90), with a comment. -/
theorem test_assemble_comment :
    (assembleLine ['U', 'M', 'P', ' ', '9', ',', ' ', singleQuote, 'J', singleQuote, ' ', ';', ' ', 'x']).map
      (List.map encode) = some [0x994A#16] := by decide

/-- `CHECK DIGIT, "572"` (spec/95_test_vectors.md 1.2). -/
theorem test_assemble_pseudo :
    (assembleLine ['C', 'H', 'E', 'C', 'K', ' ', 'D', 'I', 'G', 'I', 'T', ',', ' ', doubleQuote, '5', '7', '2',
      doubleQuote]).map (List.map encode) = some [0x1000#16, 0x2035#16, 0x2037#16, 0x2032#16, 0x4000#16] := by decide

theorem test_assemble_out_of_range : assembleLine ['P', 'U', 'T', ' ', '2', '5', '6'] = none := by decide

/-! ## Single steps (spec/95_test_vectors.md 2.2 to 2.5) -/

/-- After `SEL DIGIT`; `PUT '5'`. -/
def active : Engine := { Engine.reset with phase := .active, acc := 9 }

/-- After `SEL DIGIT`; `PUT '5'`; `PUT 'a'`. -/
def faultedSymbol : Engine := { Engine.reset with phase := .faultSymbol, errinfo := 0x61 }

/-- After `USZ 7`; `SEL USER`. -/
def faultedSize : Engine := { Engine.reset with phase := .faultSize, alpha := .user, errinfo := 0x07, usize := 7 }

/-- After `SEL UPPERHEX`; `PUT '1'`. -/
def activeHex : Engine := { Engine.reset with phase := .active, alpha := .upperHex, tsel := .table16, acc := 2 }

/-- A user alphabet of size 10 whose entries 0 and 9 are both `'A'`, in state 9. -/
def activeUser : Engine where
  phase := .active
  alpha := .user
  tsel := .table10
  acc := 9
  errinfo := 0
  usize := 10
  um := [(0, 0x41), (1, 0x42), (2, 0x43), (3, 0x44), (4, 0x45), (5, 0x46), (6, 0x47), (7, 0x48), (8, 0x49), (9, 0x41)]

/-- The engine `e` with the word `w` presented. -/
def given (e : Engine) (w : Word) : State where
  engine := e
  inbox := [PortIn.command w]
  rsp := none
  trace := []

/-- One step: the response, and the phase, the accumulator and the error information after it. -/
def oneStep (e : Engine) (w : Word) : Option (Option Word × Phase × Nibble × Byte) :=
  match step (given e w) with
  | .next t => some (t.rsp, t.engine.phase, t.engine.acc, t.engine.errinfo)
  | .fault _ => none
  | .refused _ => none

theorem test_sel_digit : oneStep faultedSymbol 0x1000 = some (some 0x000A#16, .active, 0, 0x00) := by decide

theorem test_sel_user_unsupported : oneStep faultedSize 0x1003 = some (some 0x2307#16, .faultSize, 0, 0x07) := by decide

/-- `T[9][7]` = 7 and `T[5][1]` = 6; the second tells rows from columns, since `T[1][5]` = 5. -/
theorem test_put_steps : oneStep active 0x2037 = some (some 0x0000#16, .active, 7, 0x00) ∧
    oneStep { active with acc := 5 } 0x2031 = some (some 0x0000#16, .active, 6, 0x00) := by decide

theorem test_put_invalid : oneStep active 0x2061 = some (some 0x1061#16, .faultSymbol, 0, 0x61) ∧
    oneStep activeHex 0x2047 = some (some 0x1147#16, .faultSymbol, 0, 0x47) := by decide

theorem test_fin : oneStep active 0x3000 = some (some 0x0009#16, .active, 9, 0x00) := by decide

theorem test_fin_sticky : oneStep faultedSize 0x3000 = some (some 0x2307#16, .faultSize, 0, 0x07) := by decide

theorem test_chk : oneStep active 0x4000 = some (some 0x0039#16, .active, 9, 0x00) ∧
    oneStep { activeHex with acc := 13 } 0x4000 = some (some 0x0044#16, .active, 13, 0x00) := by decide

theorem test_chk_no_fold : oneStep Engine.reset 0x4000 = some (some 0x3000#16, .idle, 0, 0x00) := by decide

theorem test_val : oneStep active 0x5000 = some (some 0x0000#16, .active, 9, 0x00) ∧
    oneStep { active with acc := 0 } 0x5000 = some (some 0x0001#16, .active, 0, 0x00) := by decide

theorem test_app : oneStep active 0x6000 = some (some 0x0039#16, .active, 0, 0x00) := by decide

/-- `APP` on an ill-formed user alphabet still reaches 0; `PUT` of the returned byte finds index 0 and reaches 2. -/
theorem test_app_ill_formed : oneStep activeUser 0x6000 = some (some 0x0041#16, .active, 0, 0x00) ∧
    oneStep activeUser 0x2041 = some (some 0x0000#16, .active, 2, 0x00) := by decide

theorem test_sts : oneStep faultedSymbol 0x7000 = some (some 0x0861#16, .faultSymbol, 0, 0x61) ∧
    oneStep faultedSize 0x7000 = some (some 0x0F07#16, .faultSize, 0, 0x07) := by decide

theorem test_usz : oneStep active 0x8010 = some (some 0x0000#16, .idle, 0, 0x00) := by decide

theorem test_usz_size : ∃ t, step (given active 0x8010) = .next t ∧ t.engine.usize = 16 ∧ t.engine.alpha = .digit :=
  ⟨_, rfl, rfl, rfl⟩

theorem test_ump : oneStep faultedSize 0x9371 = some (some 0x0000#16, .idle, 0, 0x00) := by decide

/-- `UMP 15, 0xFF` then reading the map; storing the unlisted byte removes the entry. -/
theorem test_ump_map : umWrite [] 15 0xFF = [(15, 0xFF#8)] ∧ umRead (umWrite activeUser.um 15 0xFF) 15 = 0xFF#8 ∧
    umWrite [(15, 0xFF#8)] 15 0x00 = [] := by decide

theorem test_lkp : oneStep active 0xA00A = some (some 0x000A#16, .active, 9, 0x00) ∧
    oneStep active 0xA010 = some (some 0x0110#16, .active, 9, 0x00) := by decide

theorem test_lkp_unsupported : oneStep active 0xA011 = some (some 0x2011#16, .active, 9, 0x00) := by decide

theorem test_trd : oneStep active 0xB072 = some (some 0x0004#16, .active, 9, 0x00) ∧
    oneStep Engine.reset 0xB12A = some (some 0x0003#16, .idle, 0, 0x00) := by decide

theorem test_trd_outside : oneStep faultedSymbol 0xB0A0 = some (some 0x4000#16, .faultSymbol, 0, 0x61) := by decide

/-- An illegal word is checked first, in an open fold too: 0x2161 is `PUT 'a'` with a bit set that must be zero. -/
theorem test_illegal_first : oneStep active 0x2161 = some (some 0x4000#16, .active, 9, 0x00) := by decide

/-- The word that the host places is the very next command. -/
theorem test_with_fetch_word :
    ∃ t, step (State.reset.withFetchWord 16 0xA010) = .next t ∧ t.rsp = some 0x0110#16 := ⟨_, rfl, rfl⟩

/-! ## Premises that can be met -/

theorem inv_active : Engine.Inv active :=
  ⟨fun h => absurd rfl h, fun _ => rfl, fun _ => ⟨.inl ⟨rfl, rfl⟩, by decide⟩, nofun, nofun⟩

theorem inv_activeHex : Engine.Inv activeHex :=
  ⟨fun h => absurd rfl h, fun _ => rfl, fun _ => ⟨.inr ⟨rfl, rfl⟩, by decide⟩, nofun, nofun⟩

theorem inv_activeUser : Engine.Inv activeUser :=
  ⟨fun h => absurd rfl h, fun _ => rfl, fun _ => ⟨.inl ⟨rfl, rfl⟩, by decide⟩, nofun, nofun⟩

theorem inv_faultedSymbol : Engine.Inv faultedSymbol :=
  ⟨fun _ => ⟨rfl, rfl⟩, fun h => absurd h (by decide), nofun, nofun, fun _ => by decide⟩

theorem inv_faultedSize : Engine.Inv faultedSize :=
  ⟨fun _ => ⟨rfl, rfl⟩, fun h => absurd h (by decide), nofun, fun _ => ⟨rfl, rfl, by decide⟩, nofun⟩

theorem roundTrip_upperHex (e : Engine) : RoundTrip (alphabetFns e .upperHex) :=
  ⟨by show ∀ i : Nibble, i.toNat < 16 → (digitIndex (hexByte 0x41 i)).or (letterIndex 0x41 (hexByte 0x41 i)) = some i
      decide,
   fun b i h => ⟨i.isLt, by
      have key : ∀ b : Byte, ∀ i ∈ (digitIndex b).or (letterIndex 0x41 b), hexByte 0x41 i = b := by decide
      exact key b i h⟩⟩

/-- A table of size 16 other than the hardware's: doubling twice. -/
def otherTable : Table := fun r c => dbl (dbl (r ^^^ c))

theorem otherTable_latin : IsLatin 16 otherTable := by
  refine ⟨fun r c _ _ => (otherTable r c).isLt, ?_, ?_⟩
  · show ∀ r v : Nibble, r.toNat < 16 → v.toNat < 16 → ∃ c : Nibble, c.toNat < 16 ∧ otherTable r c = v ∧
      ∀ d : Nibble, d.toNat < 16 → otherTable r d = v → d = c
    decide
  · show ∀ c v : Nibble, c.toNat < 16 → v.toNat < 16 → ∃ r : Nibble, r.toNat < 16 ∧ otherTable r c = v ∧
      ∀ d : Nibble, d.toNat < 16 → otherTable d c = v → d = r
    decide

theorem otherTable_zeroDiagonal : ZeroDiagonal 16 otherTable := by unfold ZeroDiagonal; decide

set_option maxRecDepth 10000 in
theorem otherTable_antiSymmetric : WeaklyTotallyAntiSymmetric 16 otherTable := by
  unfold WeaklyTotallyAntiSymmetric; decide

theorem otherTable_damm : IsDamm 16 otherTable := ⟨otherTable_latin, otherTable_zeroDiagonal, otherTable_antiSymmetric⟩

/-- A table of size 10 other than the hardware's: `TABLE10` with the names 1 and 2 exchanged throughout. -/
def otherTable10 : Table := fun r c => exchange (hardwareTables .table10 (exchange r) (exchange c))
where
  /-- 1 and 2 exchanged. -/
  exchange (x : Nibble) : Nibble := if x = 1 then 2 else if x = 2 then 1 else x

set_option maxRecDepth 10000 in
theorem otherTable10_latin : IsLatin 10 otherTable10 := by
  refine ⟨by decide, ?_, ?_⟩
  · show ∀ r v : Nibble, r.toNat < 10 → v.toNat < 10 → ∃ c : Nibble, c.toNat < 10 ∧ otherTable10 r c = v ∧
      ∀ d : Nibble, d.toNat < 10 → otherTable10 r d = v → d = c
    decide
  · show ∀ c v : Nibble, c.toNat < 10 → v.toNat < 10 → ∃ r : Nibble, r.toNat < 10 ∧ otherTable10 r c = v ∧
      ∀ d : Nibble, d.toNat < 10 → otherTable10 d c = v → d = r
    decide

set_option maxRecDepth 10000 in
theorem otherTable10_damm : IsDamm 10 otherTable10 :=
  ⟨otherTable10_latin, by unfold ZeroDiagonal; decide, by unfold WeaklyTotallyAntiSymmetric; decide⟩

/-- The two other tables together. -/
def otherTables : Tables
  | .table10 => otherTable10
  | .table16 => otherTable

/-- A reset with a command presented on the same clock. -/
theorem test_witness_ResetEventRestoresResetState :
    ∃ (s : State) (p : PortIn), s.engine = active ∧ s.inbox = [p] ∧ p.rst = true ∧ p.cmdValid = true :=
  ⟨{ given active 0x2037 with inbox := [⟨true, true, 0x2037⟩] }, ⟨true, true, 0x2037⟩, rfl, rfl, rfl, rfl⟩

theorem test_witness_IdleClockHoldsState :
    (∃ (s : State) (p : PortIn), s.inbox = [p] ∧ p.rst = false ∧ p.cmdValid = false) ∧ State.reset.inbox = [] :=
  ⟨⟨{ State.reset with inbox := [⟨false, false, 0xFFFF⟩] }, ⟨false, false, 0xFFFF⟩, rfl, rfl, rfl⟩, rfl⟩

theorem test_witness_StepRunsDecodedCommand :
    (given active 0xB1FF).inbox = [PortIn.command 0xB1FF] ∧ (PortIn.command 0xB1FF).rst = false ∧
    (PortIn.command 0xB1FF).cmdValid = true ∧ decode (PortIn.command 0xB1FF).cmd = .ok (.trd .table16 15 15) := by
  decide

theorem test_witness_DecodeOfEncode : (Instr.trd .table10 9 9).wellFormed = true ∧ (Instr.ump 15 0xFF).wellFormed = true := by
  decide

theorem test_witness_EncodeOfDecode : decode 0xB099#16 = .ok (.trd .table10 9 9) := by decide

/-- A word of a row, a word of no row, a word of a row other than `TRD`'s. -/
theorem test_witness_OpcodeRowsClassifyWords :
    decode 0xB1FF#16 = .ok (.trd .table16 15 15) ∧ (∀ row ∈ opcodeRows, row.matches 0xC000 = false) ∧
    ∃ row ∈ opcodeRows, row.matches 0x1003 = true ∧ row.mnemonic ≠ "TRD" := by decide

theorem test_witness_IllegalWordsExactly :
    (given active 0xB09A).inbox = [PortIn.command 0xB09A] ∧ (PortIn.command 0xB09A).rst = false ∧
    (PortIn.command 0xB09A).cmdValid = true ∧ decode (PortIn.command 0xB09A).cmd = .error .outsideTable := by decide

theorem test_witness_AssemblerReadsCommands : (Instr.trd .table16 15 1).wellFormed = true ∧ 'z'.toNat < 128 := by decide

/-- A legal and an illegal word. -/
theorem test_witness_EveryCommandAnswersOnce :
    ∃ s t s' t' : State, s.inbox = [PortIn.command 0x2037] ∧ (PortIn.command 0x2037).rst = false ∧
    (PortIn.command 0x2037).cmdValid = true ∧ step s = .next t ∧ s'.inbox = [PortIn.command 0xFFFF] ∧ step s' = .next t' :=
  ⟨given active 0x2037, _, given active 0xFFFF, _, rfl, rfl, rfl, rfl, rfl, rfl⟩

theorem test_witness_StatusCodesAreTheFive :
    ∃ t, step (given active 0xFFFF) = .next t ∧ t.rsp = some 0x4000#16 := ⟨_, rfl, rfl⟩

theorem test_witness_ResponsesFollowCheckOrder :
    (given faultedSize 0x2031).Inv ∧ (given faultedSize 0x2031).inbox = [PortIn.command 0x2031] ∧
    (PortIn.command 0x2031).rst = false ∧ (PortIn.command 0x2031).cmdValid = true ∧
    ∃ t, step (given faultedSize 0x2031) = .next t := ⟨inv_faultedSize, rfl, rfl, rfl, _, rfl⟩

theorem test_witness_LookupMatchesExactly : (11#8 ≠ 10#8 ∧ 11#8 ≠ 16#8) ∧ (255#8 ≠ 10#8 ∧ 255#8 ≠ 16#8) := by decide

theorem test_witness_TablesHoldRowStrings : (9 : Nibble).toNat < 10 ∧ (0 : Nibble).toNat < 10 := by decide

theorem test_witness_CheckedTableFacts :
    ((7 : Nibble).toNat < (9 : Nibble).toNat ∧ (9 : Nibble).toNat < 10) ∧
    ((9 : Nibble).toNat < tableSize .table10 ∧ (15 : Nibble).toNat < tableSize .table16) ∧
    fromSymbol active .digit 0x30 = some 0 := by decide

theorem test_witness_LkpReportsLookup :
    (17#8 ≠ 10#8 ∧ 17#8 ≠ 16#8) ∧ (opField 0xA10A = 0xA#4 ∧ (0xA10A#16).extractLsb' 8 4 ≠ 0) := by decide

theorem test_witness_TrdReadsTable :
    ((9 : Nibble).toNat < tableSize .table10 ∧ (15 : Nibble).toNat < tableSize .table16) ∧
    ¬ ((10 : Nibble).toNat < tableSize .table10 ∧ (0 : Nibble).toNat < tableSize .table10) ∧
    (opField 0xB200 = 0xB#4 ∧ (0xB200#16).extractLsb' 9 3 ≠ 0) := by decide

theorem test_witness_BuiltinAlphabetFormulas : (9 : Nibble).toNat ≤ 9 ∧ 10 ≤ (10 : Nibble).toNat := by decide

theorem test_witness_UserAlphabetTakesLeastIndex :
    (9 : Nibble).toNat < activeUser.usize.toNat ∧ fromSymbol activeUser .user 0x41 = some 0 ∧
    fromSymbol activeUser .user 0x4A = none := by decide

theorem test_witness_BuiltinAlphabetsRoundTrip : Alphabet.lowerHex ≠ .user := by decide

theorem test_witness_UserRoundTripIffWellFormed :
    (0 : Nibble).toNat < (9 : Nibble).toNat ∧ (9 : Nibble).toNat < activeUser.usize.toNat ∧
    umRead activeUser.um 0 = umRead activeUser.um 9 := by decide

theorem test_witness_UszStoresSizeAndClosesFold : opField 0x8100 = 0x8#4 ∧ (0x8100#16).extractLsb' 8 4 ≠ 0 := by decide

theorem test_witness_UmpStoresEntryAndClosesFold :
    Memory.wf activeUser.um = true ∧ 9 ≠ (15 : Nibble).toNat ∧ opField 0x9FFF = 0x9#4 := by decide

theorem test_witness_PseudoUserAlphabetLoadsMap :
    ∃ s : State, Memory.wf s.engine.um = true ∧ (List.replicate 16 0x41#8).length ≤ 16 ∧
    s.inbox = present (pseudoUserAlphabet (List.replicate 16 0x41)) ++ [] :=
  ⟨{ State.reset with inbox := present (pseudoUserAlphabet (List.replicate 16 0x41)) ++ [] }, rfl, by decide, rfl⟩

theorem test_witness_SelOpensFoldOrRecordsSize :
    lookup (alphabetSize active .lowerHex) = some .table16 ∧ lookup (alphabetSize faultedSize .user) = none ∧
    (opField 0x1004 = 0x1#4 ∧ (0x1004#16).extractLsb' 2 10 ≠ 0) := by decide

/-- The three phases of the gate. -/
theorem test_witness_PhaseGateAnswersWithoutEffect :
    Engine.reset.phase = .idle ∧ faultedSymbol.phase = .faultSymbol ∧ faultedSize.phase = .faultSize := by decide

theorem test_witness_PutStepsAccumulatorOrAborts :
    ((given active 0).Inv ∧ active.phase = .active ∧ fromSymbol active active.alpha 0x39 = some 9) ∧
    (activeHex.phase = .active ∧ fromSymbol activeHex activeHex.alpha 0x47 = none) ∧
    (opField 0x2100 = 0x2#4 ∧ (0x2100#16).extractLsb' 8 4 ≠ 0) :=
  ⟨⟨inv_active, rfl, by decide⟩, by decide, by decide⟩

theorem test_witness_FinReadsAccumulator : active.phase = .active ∧ (opField 0x3001 = 0x3#4 ∧ 0x3001#16 ≠ 0x3000#16) := by
  decide

theorem test_witness_ChkReadsCheckSymbol :
    ((given activeUser 0).Inv ∧ activeUser.phase = .active) ∧ (opField 0x4800 = 0x4#4 ∧ 0x4800#16 ≠ 0x4000#16) :=
  ⟨⟨inv_activeUser, rfl⟩, by decide⟩

theorem test_witness_ValReadsValidity :
    ({ active with acc := 0 }.phase = .active ∧ { active with acc := 0 }.acc = 0) ∧ (active.phase = .active ∧ active.acc ≠ 0) ∧
    (opField 0x5001 = 0x5#4 ∧ 0x5001#16 ≠ 0x5000#16) := by decide

theorem test_witness_AppReturnsCheckSymbolAndFoldsIt :
    ((given activeHex 0).Inv ∧ activeHex.phase = .active) ∧ (opField 0x6001 = 0x6#4 ∧ 0x6001#16 ≠ 0x6000#16) ∧
    RoundTrip (alphabetFns activeHex activeHex.alpha) ∧ (∃ t, exec .app (given activeHex 0) = .next t) ∧
    ∃ u, exec (.put (symbolByte activeHex activeHex.alpha activeHex.acc)) (given activeHex 0) = .next u :=
  ⟨⟨inv_activeHex, rfl⟩, by decide, roundTrip_upperHex _, ⟨_, rfl⟩, ⟨_, rfl⟩⟩

theorem test_witness_StsReadsStatus : opField 0x7001 = 0x7#4 ∧ 0x7001#16 ≠ 0x7000#16 := by decide

theorem test_witness_PhaseChangesByTable :
    ∃ t, step (given active 0x2061) = .next t ∧ t.engine.phase = .faultSymbol := ⟨_, rfl, rfl⟩

/-- An error raised by `PUT` and one raised by `SEL`. -/
theorem test_witness_StickyRepeatsRaisedResponse :
    isFoldCommand (.put 0x37) = true ∧
    (∃ t, exec (.put 0x61) (given active 0) = .next t ∧ t.engine.phase = .faultSymbol ∧ t.rsp = some 0x1061#16) ∧
    ∃ t, exec (.sel .user) (given faultedSize 0) = .next t ∧ t.engine.phase = .faultSize ∧ t.rsp = some 0x2307#16 :=
  ⟨rfl, ⟨_, rfl, rfl, rfl⟩, ⟨_, rfl, rfl, rfl⟩⟩

theorem test_witness_FaultPhaseIsLeftOnlyBy :
    ∃ t, step (given faultedSymbol 0x1000) = .next t ∧ faultedSymbol.phase = .faultSymbol ∧ t.engine ≠ faultedSymbol :=
  ⟨_, rfl, rfl, by decide⟩

/-- A write to each register. -/
theorem test_witness_RegistersHaveTheirWriters :
    (∃ t, exec (.sel .upperHex) (given active 0) = .next t ∧ t.engine.alpha ≠ active.alpha ∧ t.engine.tsel ≠ active.tsel ∧
      t.engine.acc ≠ active.acc) ∧
    (∃ t, exec (.usz 16) (given active 0) = .next t ∧ t.engine.usize ≠ active.usize) ∧
    (∃ t, exec (.ump 15 0xFF) (given active 0) = .next t ∧ Memory.read t.engine.um 15 ≠ Memory.read active.um 15) ∧
    ∃ t, exec (.put 0x61) (given active 0) = .next t ∧ t.engine.errinfo ≠ active.errinfo ∧ t.engine.phase ≠ active.phase :=
  ⟨⟨_, rfl, by decide, by decide, by decide⟩, ⟨_, rfl, by decide⟩, ⟨_, rfl, by decide⟩, ⟨_, rfl, by decide, by decide⟩⟩

theorem test_witness_ReadingCommandsAreIdempotent :
    ∃ t, exec (.trd .table10 9 9) (given active 0) = .next t ∧ exec .chk (given active 0) ≠ exec .fin (given active 0) :=
  ⟨_, rfl, fun h => by injection h with h; exact absurd (congrArg State.rsp h) (by decide)⟩

theorem test_witness_NoPartialResultIsReadable :
    faultedSymbol.phase ≠ .active ∧
    { faultedSymbol with acc := 5, tsel := .table16 } =
      { faultedSymbol with acc := { faultedSymbol with acc := 5, tsel := .table16 }.acc,
                           tsel := { faultedSymbol with acc := 5, tsel := .table16 }.tsel } ∧
    (∃ t, exec .fin (given faultedSymbol 0) = .next t) ∧
    ∃ t', exec .fin (given { faultedSymbol with acc := 5, tsel := .table16 } 0) = .next t' :=
  ⟨by decide, rfl, ⟨_, rfl⟩, ⟨_, rfl⟩⟩

theorem test_witness_SelForgetsThePast :
    (∃ t t', exec (.sel .digit) (given active 0) = .next t ∧ exec (.sel .digit) (given faultedSymbol 0) = .next t' ∧
      active.usize = faultedSymbol.usize ∧ active.um = faultedSymbol.um) ∧
    (∃ t t', exec (.sel .digit) (given active 0) = .next t ∧ exec (.sel .digit) (given faultedSize 0) = .next t') ∧
    Alphabet.digit ≠ .user := ⟨⟨_, _, rfl, rfl, rfl, rfl⟩, ⟨_, _, rfl, rfl⟩, by decide⟩

theorem test_witness_AlphabetWriteClosesFold :
    (∃ t, exec (.usz 16) (given active 0) = .next t) ∧ (∃ t, exec (.ump 15 0xFF) (given active 0) = .next t) ∧
    isFoldCommand .val = true := ⟨⟨_, rfl⟩, ⟨_, rfl⟩, rfl⟩

/-- Each of the two stops, in states that no run reaches (spec/70_reset_and_hazards.md R161). -/
theorem test_witness_StopsExactly :
    exec (.put 0x35) (given { active with acc := 12 } 0) = .fault .tabAddress ∧
    exec .chk (given { active with acc := 12 } 0) = .fault .symbolIndex ∧
    exec .app (given { activeHex with acc := 12, tsel := .table10 } 0) = .fault .tabAddress := ⟨rfl, rfl, rfl⟩

theorem test_witness_StepKeepsInvariants : (given active 0x2061).Inv ∧ ∃ t, step (given active 0x2061) = .next t :=
  ⟨inv_active, _, rfl⟩

theorem test_witness_InvariantStatesNeverStop : (given activeHex 0x2046).Inv ∧ (given faultedSymbol 0x6000).Inv :=
  ⟨inv_activeHex, inv_faultedSymbol⟩

/-- A state after one command from reset. -/
theorem test_witness_ReachableStatesAreSafe : ∃ s : State, Reachable s ∧ s.engine.phase = .active :=
  ⟨_, .step _ _ (.drive _ (PortIn.command 0x1000) .reset) rfl, rfl⟩

theorem test_witness_MemoryStaysCanonical :
    Memory.wf activeUser.um = true ∧ (∃ t, step (given activeUser 0x9000) = .next t) ∧
    (∀ i : Nibble, umRead (umWrite activeUser.um 15 0xFF) i = umRead (umWrite activeUser.um 15 0xFF) i) :=
  ⟨rfl, ⟨_, rfl⟩, fun _ => rfl⟩

theorem test_witness_EnginesAreIndependent :
    ∃ (σ σ₁ σ₂ : System 2), (0 : Fin 2) ≠ 1 ∧ σ.stepEngine 0 = .next σ₁ ∧ σ₁.stepEngine 1 = .next σ₂ :=
  ⟨#v[given active 0x2037, given Engine.reset 0x1001], _, _, by decide, rfl, rfl⟩

theorem test_witness_CheckSymbolExistsUniquely : IsDamm 16 otherTable ∧ (15 : Nibble).toNat < 16 :=
  ⟨otherTable_damm, by decide⟩

theorem test_witness_EmptyInputIsValid :
    lookup (alphabetFns active .upperHex).size = some .table16 ∧ lookup (alphabetFns faultedSize .user).size = none ∧
    Alphabet.digit ≠ .user := by decide

/-- Over the other table `"1"` has the check symbol `'4'`: dbl(dbl(1)) = 4. -/
theorem otherTable_check : checkSymbol (fun _ => otherTable) (alphabetFns active .upperHex) [0x31] = .ok 0x34#8 := rfl

theorem test_witness_SelfGeneratedCheckSymbolValidates :
    lookup (alphabetFns active .upperHex).size = some .table16 ∧ IsDamm 16 otherTable ∧
    RoundTrip (alphabetFns active .upperHex) ∧
    checkSymbol (fun _ => otherTable) (alphabetFns active .upperHex) [0x31] = .ok 0x34#8 :=
  ⟨rfl, otherTable_damm, roundTrip_upperHex _, otherTable_check⟩

/-- The check symbol's own position is substituted. -/
theorem test_witness_SingleSubstitutionIsDetected :
    lookup (alphabetFns active .upperHex).size = some .table16 ∧ IsDamm 16 otherTable ∧
    RoundTrip (alphabetFns active .upperHex) ∧
    checkSymbol (fun _ => otherTable) (alphabetFns active .upperHex) [0x31] = .ok 0x34#8 ∧
    ([0x31#8] ++ [0x34#8] = [0x31#8] ++ 0x34#8 :: [] ∧ 0x46#8 ≠ 0x34#8 ∧
      ((alphabetFns active .upperHex).fromSymbol 0x46).isSome = true) :=
  ⟨rfl, otherTable_damm, roundTrip_upperHex _, otherTable_check, by decide⟩

/-- The last pair is swapped. -/
theorem test_witness_AdjacentTranspositionIsDetected :
    lookup (alphabetFns active .upperHex).size = some .table16 ∧ IsLatin 16 otherTable ∧ ZeroDiagonal 16 otherTable ∧
    RoundTrip (alphabetFns active .upperHex) ∧
    checkSymbol (fun _ => otherTable) (alphabetFns active .upperHex) [0x31] = .ok 0x34#8 ∧
    ([0x31#8] ++ [0x34#8] = [] ++ 0x31#8 :: 0x34#8 :: [] ∧ 0x31#8 ≠ 0x34#8) :=
  ⟨rfl, otherTable_latin, otherTable_zeroDiagonal, roundTrip_upperHex _, otherTable_check, by decide⟩

theorem test_witness_OperationsFollowFold :
    fold hardwareTables (alphabetFns active .digit) [0x31, 0x61] =
      .error (.invalidSymbol 0x61 (alphabetFns active .digit)) ∧
    fold hardwareTables (alphabetFns active .digit) [0x31, 0x32] = .ok 5 ∧
    lookup (alphabetFns faultedSize .user).size = none ∧
    (lookup (alphabetFns active .digit).size = some .table10 ∧
      [0x31, 0x32].map (alphabetFns active .digit).fromSymbol = [1, 2].map some) ∧
    (lookup (alphabetFns active .upperHex).size = some .table16 ∧ IsLatin 16 otherTable ∧
      RoundTrip (alphabetFns active .upperHex) ∧
      fold (fun _ => otherTable) (alphabetFns active .upperHex) [0x31] = .ok 4) :=
  ⟨rfl, rfl, rfl, ⟨rfl, rfl⟩, rfl, otherTable_latin, roundTrip_upperHex _, rfl⟩

theorem test_witness_CommandsComputePureFunctions :
    (∃ s : State, s.inbox = present (pseudoCall .digit [0x31, 0x32, 0x61, 0x34] .chk) ++ []) ∧
    RoundTrip (alphabetFns active .upperHex) ∧
    checkSymbol hardwareTables (alphabetFns active .upperHex) [0x31] = .ok 0x32#8 ∧
    ∃ u, Sys2Proof.core.run 3
      { State.reset with inbox := present (.sel .upperHex :: pseudoPuts ([0x31] ++ [0x32])) } = .next u :=
  ⟨⟨{ State.reset with inbox := present (pseudoCall .digit [0x31, 0x32, 0x61, 0x34] .chk) ++ [] }, rfl⟩,
   roundTrip_upperHex _, rfl, ⟨_, rfl⟩⟩

theorem test_witness_AnyDammTablesGiveABlock :
    IsDamm 10 (otherTables .table10) ∧ IsDamm 16 (otherTables .table16) ∧ otherTables .table10 1 0 ≠ hardwareTables .table10 1 0 ∧
    (given active 0x2061).Inv ∧
    ∃ s : State, s.inbox = present (pseudoCall .digit [0x31, 0x32] .app) ++ [] :=
  ⟨otherTable10_damm, otherTable_damm, by decide, inv_active,
   ⟨{ State.reset with inbox := present (pseudoCall .digit [0x31, 0x32] .app) ++ [] }, rfl⟩⟩

/-- Over the other table `"14"` in UPPERHEX has the symbols swapped at the last pair, and its first one substituted. -/
theorem test_witness_EngineDetectsSingleErrors :
    IsDamm 10 (otherTables .table10) ∧ IsDamm 16 (otherTables .table16) ∧
    lookup (alphabetSize active .upperHex) = some .table16 ∧
    (Alphabet.upperHex = .user → UserAlphabetWellFormed active) ∧
    checkSymbol otherTables (alphabetFns active .upperHex) [0x31] = .ok 0x34#8 ∧
    (∃ s : State, s.engine = active ∧ s.inbox = present (pseudoValid .upperHex ([0x31] ++ [0x34]))) ∧
    ([0x31#8] ++ [0x34#8] = [] ++ 0x31#8 :: [0x34#8] ∧ 0x46#8 ≠ 0x31#8 ∧ (fromSymbol active .upperHex 0x46).isSome = true) ∧
    ([0x31#8] ++ [0x34#8] = [] ++ 0x31#8 :: 0x34#8 :: [] ∧ 0x31#8 ≠ 0x34#8) :=
  ⟨otherTable10_damm, otherTable_damm, rfl, nofun, rfl,
   ⟨{ given active 0 with inbox := present (pseudoValid .upperHex ([0x31] ++ [0x34])) }, rfl, rfl⟩, by decide, by decide⟩

end Sys2Proof.Tests
end

/-! PROOF. Family 10_state: the reset values, the invariants of R22 on every run, the writers of each register, and
that no response given outside a fold depends on `ACC` or `TSEL` (spec/10_state.md). -/

namespace Sys2Proof.Machine

/-! ## Reset and the hardware's tables -/

/-- Settles O1: R23's table is the definition of the reset state, and the empty map reads 0x00 everywhere. -/
theorem resetValues : Obligations.ResetValues := by
  unfold Obligations.ResetValues
  exact ⟨rfl, rfl, rfl, rfl, rfl, rfl, fun i => Memory.read_nil i.toNat, rfl, rfl, rfl⟩

/-- A run is determined by its step function, and the two machines have the same one. -/
theorem core_run_eq_coreOn_run (n : Nat) (s : State) :
    Sys2Proof.core.run n s = (coreOn hardwareTables).run n s := by
  have hrun : ∀ f, step = f →
      Sys2Proof.core.run n s = Host.Core.run ⟨State, Fault, Refusal, f, State.reset⟩ n s := by
    rintro _ rfl
    rfl
  exact hrun _ (funext step_eq_stepOn)

/-- Settles O58: command by command, clock by clock and run by run. -/
theorem hardwareIsBlockOverDefaultTables : Obligations.HardwareIsBlockOverDefaultTables := by
  unfold Obligations.HardwareIsBlockOverDefaultTables
  exact ⟨exec_eq_execOn, step_eq_stepOn, core_run_eq_coreOn_run⟩

/-! ## The invariants of R22 are kept -/

/-- The entries of each table are states of that table (R62 without its bijections): what R22 item 3 needs of them. -/
def Tables.Closed (T : Tables) : Prop :=
  ∀ (t : TableId) (r c : Nibble), r.toNat < tableSize t → c.toNat < tableSize t → (T t r c).toNat < tableSize t

theorem hardwareTables_closed : Tables.Closed hardwareTables := fun _ _ _ => tableEntry_lt

/-- What is read from closed tables is a state of the table. -/
theorem Tables.Closed.tabRead_lt {T : Tables} (hT : T.Closed) {t : TableId} {r c v : Nibble}
    (h : tabRead T t r c = some v) : v.toNat < tableSize t := by
  obtain ⟨hr, hc, rfl⟩ := tabRead_eq_some.mp h
  exact hT t r c hr hc

theorem Engine.inv_reset : Engine.reset.Inv :=
  ⟨fun _ => ⟨rfl, rfl⟩, fun _ => rfl, nofun, nofun, nofun⟩

/-- `USZ` and `UMP` close the fold, so whatever they changed before is harmless (R111). -/
theorem Engine.inv_closeFold (e : Engine) : e.closeFold.Inv :=
  ⟨fun _ => ⟨rfl, rfl⟩, fun _ => rfl, nofun, nofun, nofun⟩

/-- A `SEL` that finds its table opens a fold whose table has the alphabet's size (R113, R22 item 3). -/
theorem Engine.inv_openFold {e : Engine} {a : Alphabet} {t : TableId} (h : lookup (alphabetSize e a) = some t) :
    (e.openFold a t).Inv where
  closed hna := absurd rfl hna
  noError _ := rfl
  openFold _ := by
    have hsize : alphabetSize (e.openFold a t) a = alphabetSize e a := alphabetSize_congr a rfl
    simp only [Engine.openFold_alpha, Engine.openFold_tsel, Engine.openFold_acc, hsize]
    obtain ⟨hn, rfl⟩ | ⟨hn, rfl⟩ := lookup_eq_some.mp h <;> rw [hn] <;> decide
  sizeFault := nofun
  symbolFault := nofun

/-- Only the user alphabet can have a size that no table is registered for (R81). -/
theorem alphabet_eq_user_of_lookup_eq_none {e : Engine} {a : Alphabet} (h : lookup (alphabetSize e a) = none) :
    a = .user := by
  cases a with
  | user => rfl
  | digit | upperHex | lowerHex => cases h

/-- The entry of `UnsupportedAlphabetSize` records the declared size (R143, R22 item 4). -/
theorem Engine.inv_recordError_unsupportedSize {e : Engine} {a : Alphabet} (h : lookup (alphabetSize e a) = none) :
    (e.recordError .unsupportedSize a (alphabetSize e a)).Inv where
  closed _ := ⟨rfl, rfl⟩
  noError := nofun
  openFold := nofun
  sizeFault _ := by
    obtain rfl := alphabet_eq_user_of_lookup_eq_none h
    obtain ⟨h10, h16⟩ := lookup_eq_none.mp h
    exact ⟨rfl, rfl, by simpa [Config.registeredSizes] using ⟨h10, h16⟩⟩
  symbolFault := nofun

/-- The entry of `InvalidSymbol` records a byte that the alphabet rejects (R142, R22 item 5). -/
theorem Engine.inv_recordError_invalidSymbol {e : Engine} {b : Byte} (h : fromSymbol e e.alpha b = none) :
    (e.recordError .invalidSymbol e.alpha b).Inv where
  closed _ := ⟨rfl, rfl⟩
  noError := nofun
  openFold := nofun
  sizeFault := nofun
  symbolFault _ := (fromSymbol_congr e.alpha b rfl rfl).trans h

/-- In an open fold the accumulator may take any state of the selected table (R22 item 3). -/
theorem Engine.Inv.setAcc {e : Engine} (h : e.Inv) (ha : e.phase = .active) {v : Nibble}
    (hv : v.toNat < tableSize e.tsel) : (e.setAcc v).Inv where
  closed hna := absurd ha hna
  noError := h.noError
  openFold _ := by
    have hsize : alphabetSize (e.setAcc v) e.alpha = alphabetSize e e.alpha := alphabetSize_congr e.alpha rfl
    simp only [Engine.setAcc_alpha, Engine.setAcc_tsel, Engine.setAcc_acc, hsize]
    exact ⟨(h.openFold ha).1, h.tableSize_eq ha ▸ hv⟩
  sizeFault hp := absurd (ha.symm.trans hp) (by decide)
  symbolFault hp := absurd (ha.symm.trans hp) (by decide)

/-- Every command keeps the invariants of R22, over closed tables. -/
theorem Effect.inv {T : Tables} (hT : T.Closed) {i : Instr} {e e' : Engine} (h : Effect T i e e') (he : e.Inv) :
    e'.Inv := by
  cases h with
  | keep => exact he
  | openFold a _ t hl => exact Engine.inv_openFold hl
  | sizeError a _ hl => exact Engine.inv_recordError_unsupportedSize hl
  | symbolError b _ _ hf => exact Engine.inv_recordError_invalidSymbol hf
  | symbol b _ x v ha _ hv => exact he.setAcc ha (hT.tabRead_lt hv)
  | append _ v ha hv => exact he.setAcc ha (hT.tabRead_lt hv)
  | size n => exact Engine.inv_closeFold _
  | entry x b => exact Engine.inv_closeFold _

/-- Every clock keeps the invariants of R22, over closed tables. -/
theorem stepOn_inv {T : Tables} (hT : T.Closed) {s t : State} (hs : s.Inv) (h : stepOn T s = .next t) : t.Inv := by
  unfold State.Inv at hs ⊢
  obtain heq | heq | ⟨i, he⟩ := stepOn_engine h
  · exact heq ▸ hs
  · exact heq ▸ Engine.inv_reset
  · exact he.inv hT hs

theorem step_inv {s t : State} (hs : s.Inv) (h : step s = .next t) : t.Inv :=
  stepOn_inv hardwareTables_closed hs (step_eq_stepOn s ▸ h)

/-! ## A state that meets the invariants can go on -/

/-- The phase gate goes on if the command's own rule does in an open fold (R112). -/
theorem foldGate_goesOn {s : State} {body : Host.Outcome State Fault Refusal}
    (h : s.engine.phase = .active → ∃ t, body = .next t) : ∃ t, foldGate s body = .next t := by
  unfold foldGate
  split
  · exact ⟨_, rfl⟩
  · exact ⟨_, rfl⟩
  · exact ⟨_, rfl⟩
  · next ha => exact h ha

/-- In an open fold an accepted symbol's index lies inside the selected table (R68). -/
theorem Engine.Inv.index_lt {e : Engine} (h : e.Inv) (ha : e.phase = .active) {b : Byte} {x : Nibble}
    (hx : fromSymbol e e.alpha b = some x) : x.toNat < tableSize e.tsel := by
  rw [h.tableSize_eq ha]
  exact fromSymbol_lt hx

/-- No command stops in a state that meets the invariants, whatever the tables hold: `PUT` and `APP` read inside the
table, `CHK` and `APP` name a symbol of the alphabet (R68, R80). -/
theorem execOn_goesOn (T : Tables) (i : Instr) {s : State} (hs : s.Inv) : ∃ t, execOn T i s = .next t := by
  cases i with
  | sel a =>
    simp only [execOn, execSel]
    split <;> exact ⟨_, rfl⟩
  | put b =>
    refine foldGate_goesOn fun ha => ?_
    split
    · exact ⟨_, rfl⟩
    · next x hx =>
      rw [tabRead_inside (hs.acc_lt ha) (hs.index_lt ha hx)]
      exact ⟨_, rfl⟩
  | fin => exact foldGate_goesOn fun _ => ⟨_, rfl⟩
  | chk =>
    refine foldGate_goesOn fun ha => ?_
    rw [toSymbol_inside (hs.openFold ha).2]
    exact ⟨_, rfl⟩
  | val => exact foldGate_goesOn fun _ => ⟨_, rfl⟩
  | app =>
    refine foldGate_goesOn fun ha => ?_
    rw [toSymbol_inside (hs.openFold ha).2, tabRead_inside (hs.acc_lt ha) (hs.acc_lt ha)]
    exact ⟨_, rfl⟩
  | sts => exact ⟨_, rfl⟩
  | usz n => exact ⟨_, rfl⟩
  | ump x b => exact ⟨_, rfl⟩
  | lkp n =>
    simp only [execOn, execLkp]
    split <;> exact ⟨_, rfl⟩
  | trd t r c =>
    simp only [execOn, execTrdOn]
    split <;> exact ⟨_, rfl⟩

/-- A clock goes on if every command does; reset, idle clocks and illegal words always do. -/
theorem stepBy_goesOn {ex : Instr → State → Host.Outcome State Fault Refusal} {s : State}
    (h : ∀ (i : Instr) (rest : List PortIn), ∃ t, ex i { s with inbox := rest } = .next t) :
    ∃ t, stepBy ex s = .next t := by
  unfold stepBy
  split
  · exact ⟨_, rfl⟩
  · next p rest _ =>
    unfold clockBy
    split
    · exact ⟨_, rfl⟩
    · split
      · unfold runCommandBy
        split
        · next i _ => exact h i rest
        · exact ⟨_, rfl⟩
      · exact ⟨_, rfl⟩

theorem stepOn_goesOn (T : Tables) {s : State} (hs : s.Inv) : ∃ t, stepOn T s = .next t :=
  stepBy_goesOn fun i rest => execOn_goesOn T i (s := { s with inbox := rest }) hs

theorem step_goesOn {s : State} (hs : s.Inv) : ∃ t, step s = .next t :=
  step_eq_stepOn s ▸ stepOn_goesOn hardwareTables hs

/-- Induction over a run: a property of the engine that holds after reset and that every step keeps holds in every
reachable state, since driving inputs leaves the engine alone. -/
theorem Reachable.engine_induction {P : Engine → Prop} (hreset : P Engine.reset)
    (hstep : ∀ s t : State, P s.engine → Machine.step s = .next t → P t.engine) {s : State} (hs : Reachable s) :
    P s.engine := by
  induction hs with
  | reset => exact hreset
  | drive s p _ ih => exact ih
  | step s t _ h ih => exact hstep s t ih h

theorem Reachable.inv {s : State} (hs : Reachable s) : s.Inv :=
  hs.engine_induction (P := Engine.Inv) Engine.inv_reset fun _ _ => step_inv

/-- Settles O48: the invariants hold after reset, every step keeps them, and a state that meets them can go on. -/
theorem reachableStatesAreSafe : Obligations.ReachableStatesAreSafe := by
  unfold Obligations.ReachableStatesAreSafe
  intro s hs
  obtain ⟨t, ht⟩ := step_goesOn hs.inv
  exact ⟨hs.inv, t, ht, .step s t hs ht⟩

/-! ## The writers of each register -/

section Writers
variable {T : Tables} {i : Instr} {e e' : Engine}

/-- R14. -/
theorem Effect.alpha_writer (h : Effect T i e e') (hne : e'.alpha ≠ e.alpha) : ∃ a, i = .sel a := by
  cases h with
  | openFold a => exact ⟨a, rfl⟩
  | sizeError a => exact ⟨a, rfl⟩
  | keep | symbolError | symbol | append | size | entry => exact absurd rfl hne

/-- R17. -/
theorem Effect.usize_writer (h : Effect T i e e') (hne : e'.usize ≠ e.usize) : ∃ n, i = .usz n := by
  cases h with
  | size n => exact ⟨n, rfl⟩
  | keep | openFold | sizeError | symbolError | symbol | append | entry => exact absurd rfl hne

/-- R18: an entry changes only by the `UMP` of its own index. -/
theorem Effect.um_writer (h : Effect T i e e') {a : Nat} (hne : Memory.read e'.um a ≠ Memory.read e.um a) :
    ∃ x b, i = .ump x b ∧ x.toNat = a := by
  cases h with
  | entry x b =>
    refine ⟨x, b, rfl, ?_⟩
    by_contra hxa
    exact hne (Memory.read_write_ne b e.um (Ne.symm hxa))
  | keep | openFold | sizeError | symbolError | symbol | append | size => exact absurd rfl hne

/-- R11. -/
theorem Effect.acc_writer (h : Effect T i e e') (hne : e'.acc ≠ e.acc) :
    (∃ a, i = .sel a) ∨ (∃ b, i = .put b) ∨ i = .app ∨ (∃ n, i = .usz n) ∨ ∃ x b, i = .ump x b := by
  cases h with
  | keep => exact absurd rfl hne
  | openFold a | sizeError a => exact .inl ⟨a, rfl⟩
  | symbolError b | symbol b => exact .inr (.inl ⟨b, rfl⟩)
  | append => exact .inr (.inr (.inl rfl))
  | size n => exact .inr (.inr (.inr (.inl ⟨n, rfl⟩)))
  | entry x b => exact .inr (.inr (.inr (.inr ⟨x, b, rfl⟩)))

/-- R13, R15, R16: the registers of the fold's status have the same writers. -/
theorem Effect.status_writer (h : Effect T i e e')
    (hne : e'.tsel ≠ e.tsel ∨ e'.errinfo ≠ e.errinfo ∨ e'.phase ≠ e.phase) :
    (∃ a, i = .sel a) ∨ (∃ b, i = .put b) ∨ (∃ n, i = .usz n) ∨ ∃ x b, i = .ump x b := by
  cases h with
  | openFold a | sizeError a => exact .inl ⟨a, rfl⟩
  | symbolError b | symbol b => exact .inr (.inl ⟨b, rfl⟩)
  | size n => exact .inr (.inr (.inl ⟨n, rfl⟩))
  | entry x b => exact .inr (.inr (.inr ⟨x, b, rfl⟩))
  | keep | append => simp at hne

end Writers

/-- Settles O39: a command that completes has one of the effects of `Effect`, each of which names its command. -/
theorem registersHaveTheirWriters : Obligations.RegistersHaveTheirWriters := by
  unfold Obligations.RegistersHaveTheirWriters
  intro i s t h
  obtain ⟨e, r, rfl, he⟩ := exec_effect h
  exact ⟨he.alpha_writer, he.usize_writer, fun _ => he.um_writer, he.acc_writer, he.status_writer⟩

/-! ## No response outside a fold depends on the accumulator or the table selector -/

/-- Two engines that agree on all registers but `ACC` and `TSEL` (R25). -/
structure Engine.AgreeOutsideFold (e e' : Engine) : Prop where
  phase : e'.phase = e.phase
  alpha : e'.alpha = e.alpha
  errinfo : e'.errinfo = e.errinfo
  usize : e'.usize = e.usize
  um : e'.um = e.um

theorem Engine.agreeOutsideFold_iff {e e' : Engine} :
    e.AgreeOutsideFold e' ↔ e' = { e with acc := e'.acc, tsel := e'.tsel } := by
  constructor
  · rintro ⟨hp, ha, he, hu, hm⟩
    simp only [← hp, ← ha, ← he, ← hu, ← hm]
  · intro h
    rw [h]
    exact ⟨rfl, rfl, rfl, rfl, rfl⟩

/-- Both commands complete, with the same response. -/
def SameResponse (o o' : Host.Outcome State Fault Refusal) : Prop :=
  ∃ t t', o = .next t ∧ o' = .next t' ∧ t.rsp = t'.rsp

theorem SameResponse.rsp_eq {o o' : Host.Outcome State Fault Refusal} {t t' : State} (hsame : SameResponse o o')
    (h : o = .next t) (h' : o' = .next t') : t.rsp = t'.rsp := by
  obtain ⟨u, u', rfl, rfl, hrsp⟩ := hsame
  cases h; cases h'
  exact hrsp

section Noninterference
variable {s s' : State}

/-- A closed phase gate answers from `PHASE`, `ALPHA` and `ERRINFO` alone, whatever the command's own rule is (R112). -/
theorem foldGate_sameResponse (body body' : Host.Outcome State Fault Refusal) (hp : s.engine.phase ≠ .active)
    (hag : s.engine.AgreeOutsideFold s'.engine) : SameResponse (foldGate s body) (foldGate s' body') := by
  have hsticky : ∀ k, sticky k s.engine = sticky k s'.engine := fun k => by
    simp only [sticky, hag.alpha, hag.errinfo]
  unfold foldGate
  rw [hag.phase]
  cases hph : s.engine.phase with
  | active => exact absurd hph hp
  | idle => exact ⟨_, _, rfl, rfl, rfl⟩
  | faultSymbol | faultSize => exact ⟨_, _, rfl, rfl, congrArg some (hsticky _)⟩

/-- `SEL` answers from the alphabet's size alone (R113). -/
theorem execSel_sameResponse (a : Alphabet) (hag : s.engine.AgreeOutsideFold s'.engine) :
    SameResponse (execSel a s) (execSel a s') := by
  have hsize : alphabetSize s'.engine a = alphabetSize s.engine a := alphabetSize_congr a hag.usize
  simp only [execSel, hsize]
  cases lookup (alphabetSize s.engine a) with
  | none | some => exact ⟨_, _, rfl, rfl, rfl⟩

/-- `STS` shows `PHASE`, `ALPHA` and `ERRINFO` (R119). -/
theorem execSts_sameResponse (hag : s.engine.AgreeOutsideFold s'.engine) : SameResponse (execSts s) (execSts s') := by
  refine ⟨_, _, rfl, rfl, ?_⟩
  simp only [State.answer_rsp, hag.phase, hag.alpha, hag.errinfo]

/-- `LKP` answers from its operand (R69). -/
theorem execLkp_sameResponse (n : Byte) : SameResponse (execLkp n s) (execLkp n s') := by
  unfold execLkp
  cases lookup n with
  | none | some => exact ⟨_, _, rfl, rfl, rfl⟩

/-- `TRD` answers from its operands and the tables (R70). -/
theorem execTrdOn_sameResponse (T : Tables) (x : TableId) (r c : Nibble) :
    SameResponse (execTrdOn T x r c s) (execTrdOn T x r c s') := by
  unfold execTrdOn
  cases tabRead T x r c with
  | none | some => exact ⟨_, _, rfl, rfl, rfl⟩

/-- While no fold is open every command answers alike from engines that agree outside the fold (R25). -/
theorem execOn_sameResponse (T : Tables) (i : Instr) (hp : s.engine.phase ≠ .active)
    (hag : s.engine.AgreeOutsideFold s'.engine) : SameResponse (execOn T i s) (execOn T i s') := by
  cases i with
  | put _ | fin | chk | val | app => exact foldGate_sameResponse _ _ hp hag
  | sel a => exact execSel_sameResponse a hag
  | sts => exact execSts_sameResponse hag
  | usz _ | ump _ _ => exact ⟨_, _, rfl, rfl, rfl⟩
  | lkp n => exact execLkp_sameResponse n
  | trd x r c => exact execTrdOn_sameResponse T x r c

end Noninterference

/-- Settles O41: the five fold commands stop at the closed gate, and the other six never read `ACC` or `TSEL`. -/
theorem noPartialResultIsReadable : Obligations.NoPartialResultIsReadable := by
  unfold Obligations.NoPartialResultIsReadable
  intro i s s' t t' hp heq h h'
  rw [exec_eq_execOn] at h h'
  exact (execOn_sameResponse hardwareTables i hp (Engine.agreeOutsideFold_iff.mpr heq)).rsp_eq h h'

end Sys2Proof.Machine

/-! PROOF. Family 20_memory: the reading commands are idempotent, where the model stops, and the canonical form of the
space `UM` (spec/20_memory.md). -/

namespace Sys2Proof.Machine

/-! ## Reading commands -/

/-- A rule that, where it completes, leaves the engine alone and answers from the engine only (R35). -/
def AnswersFromEngine (ex : State → Host.Outcome State Fault Refusal) : Prop :=
  ∀ s t : State, ex s = .next t → ∃ r, ∀ s' : State, s'.engine = s.engine → ex s' = .next (s'.answer s'.engine r)

/-- One answer, computed from the engine. -/
theorem answersFromEngine_answer (r : Engine → Word) :
    AnswersFromEngine fun s => .next (s.answer s.engine (r s.engine)) := by
  intro s t _
  exact ⟨r s.engine, fun s' he => by simp only [he]⟩

/-- A closed phase gate answers from the engine, whatever the command's own rule is (R112). -/
theorem foldGate_closed {s : State} (hp : s.engine.phase ≠ .active) : ∃ r, ∀ (s' : State) body,
    s'.engine = s.engine → foldGate s' body = .next (s'.answer s'.engine r) := by
  simp only [foldGate]
  cases hph : s.engine.phase with
  | active => exact absurd hph hp
  | idle => exact ⟨respond .noFold 0 0x00#8, fun s' _ he => by rw [he, hph, ← he]; rfl⟩
  | faultSymbol => exact ⟨sticky .invalidSymbol s.engine, fun s' _ he => by rw [he, hph, ← he]; rfl⟩
  | faultSize => exact ⟨sticky .unsupportedSize s.engine, fun s' _ he => by rw [he, hph, ← he]; rfl⟩

theorem AnswersFromEngine.foldGate {body : State → Host.Outcome State Fault Refusal} (h : AnswersFromEngine body) :
    AnswersFromEngine fun s => foldGate s (body s) := by
  intro s t ht
  by_cases hp : s.engine.phase = .active
  · obtain ⟨r, hr⟩ := h s t ((foldGate_active _ hp).symm.trans ht)
    exact ⟨r, fun s' he => (foldGate_active _ (he ▸ hp)).trans (hr s' he)⟩
  · obtain ⟨r, hr⟩ := foldGate_closed hp
    exact ⟨r, fun s' he => hr s' _ he⟩

theorem execFin_answersFromEngine : AnswersFromEngine execFin :=
  (answersFromEngine_answer fun e => respond .ok 0 (zext8 e.acc)).foldGate

theorem execVal_answersFromEngine : AnswersFromEngine execVal :=
  (answersFromEngine_answer fun e => respond .ok 0 (validByte e.acc)).foldGate

theorem execSts_answersFromEngine : AnswersFromEngine execSts :=
  answersFromEngine_answer fun e => respond .ok (stsAux e.phase e.alpha) e.errinfo

theorem execChk_answersFromEngine : AnswersFromEngine execChk := by
  refine AnswersFromEngine.foldGate fun s t ht => ?_
  split at ht
  · cases ht
  · next c hc => exact ⟨respond .ok 0 c, fun s' he => by rw [he, hc]⟩

theorem execLkp_answersFromEngine (n : Byte) : AnswersFromEngine (execLkp n) := by
  unfold execLkp
  cases lookup n with
  | some t => exact answersFromEngine_answer fun _ => respond .ok (tableAux t) n
  | none => exact answersFromEngine_answer fun _ => respond .unsupportedSize 0 n

theorem execTrdOn_answersFromEngine (T : Tables) (x : TableId) (r c : Nibble) :
    AnswersFromEngine (execTrdOn T x r c) := by
  unfold execTrdOn
  cases tabRead T x r c with
  | some v => exact answersFromEngine_answer fun _ => respond .ok 0 (zext8 v)
  | none => exact answersFromEngine_answer fun _ => respond .illegalCmd 0 0x00#8

theorem exec_answersFromEngine {i : Instr}
    (hi : i ∈ [.fin, .chk, .val, .sts] ∨ (∃ n, i = .lkp n) ∨ ∃ x r c, i = .trd x r c) :
    AnswersFromEngine (exec i) := by
  simp only [List.mem_cons, List.not_mem_nil, or_false] at hi
  obtain (rfl | rfl | rfl | rfl) | ⟨n, rfl⟩ | ⟨x, r, c, rfl⟩ := hi
  · exact execFin_answersFromEngine
  · exact execChk_answersFromEngine
  · exact execVal_answersFromEngine
  · exact execSts_answersFromEngine
  · exact execLkp_answersFromEngine n
  · exact execTrdOn_answersFromEngine hardwareTables x r c

/-- Settles O40: the six commands answer from an engine that their own answer leaves as it was. -/
theorem readingCommandsAreIdempotent : Obligations.ReadingCommandsAreIdempotent := by
  unfold Obligations.ReadingCommandsAreIdempotent
  intro i s t hi h
  obtain ⟨r, hr⟩ := exec_answersFromEngine hi s t h
  have ht : s.answer s.engine r = t := Host.Outcome.next.inj ((hr s rfl).symm.trans h)
  subst ht
  exact ⟨rfl, r, rfl, hr _ rfl⟩

/-! ## Where the model stops -/

section Stops
variable {T : Tables} {s : State} {f : Fault}

/-- A closed phase gate never stops; an open one stops where the command's own rule does (R112). -/
theorem foldGate_eq_fault {body : Host.Outcome State Fault Refusal} :
    foldGate s body = .fault f ↔ s.engine.phase = .active ∧ body = .fault f := by
  by_cases hp : s.engine.phase = .active
  · simp [foldGate_active body hp, hp]
  · obtain ⟨r, hr⟩ := foldGate_closed hp
    simp [hr s body rfl, hp]

theorem foldGate_ne_refused {body : Host.Outcome State Fault Refusal} {r : Refusal} (h : body ≠ .refused r) :
    foldGate s body ≠ .refused r := by
  by_cases hp : s.engine.phase = .active
  · rwa [foldGate_active body hp]
  · obtain ⟨_, hr⟩ := foldGate_closed hp
    simp [hr s body rfl]

theorem execPutOn_eq_fault {b : Byte} :
    execPutOn T b s = .fault f ↔ s.engine.phase = .active ∧ ∃ x, fromSymbol s.engine s.engine.alpha b = some x ∧
      ¬ (s.engine.acc.toNat < tableSize s.engine.tsel ∧ x.toNat < tableSize s.engine.tsel) ∧ f = .tabAddress := by
  rw [execPutOn, foldGate_eq_fault]
  refine and_congr_right fun _ => ?_
  cases fromSymbol s.engine s.engine.alpha b with
  | none => simp
  | some x =>
    simp only [Option.some.injEq, exists_eq_left']
    by_cases hin : s.engine.acc.toNat < tableSize s.engine.tsel ∧ x.toNat < tableSize s.engine.tsel
    · simp [tabRead_inside hin.1 hin.2, hin]
    · simp [tabRead_eq_none.mpr hin, hin, eq_comm]

theorem execChk_eq_fault :
    execChk s = .fault f ↔ s.engine.phase = .active ∧
      ¬ s.engine.acc.toNat < (alphabetSize s.engine s.engine.alpha).toNat ∧ f = .symbolIndex := by
  rw [execChk, foldGate_eq_fault, ← toSymbol_eq_none]
  refine and_congr_right fun _ => ?_
  cases toSymbol s.engine s.engine.alpha s.engine.acc with
  | none => simp [eq_comm]
  | some c => simp

/-- `APP` needs the check symbol before it reads the table (R118). -/
theorem execAppOn_eq_fault :
    execAppOn T s = .fault f ↔ s.engine.phase = .active ∧
      ((¬ s.engine.acc.toNat < (alphabetSize s.engine s.engine.alpha).toNat ∧ f = .symbolIndex) ∨
       (s.engine.acc.toNat < (alphabetSize s.engine s.engine.alpha).toNat ∧
          ¬ s.engine.acc.toNat < tableSize s.engine.tsel ∧ f = .tabAddress)) := by
  rw [execAppOn, foldGate_eq_fault]
  refine and_congr_right fun _ => ?_
  by_cases hc : s.engine.acc.toNat < (alphabetSize s.engine s.engine.alpha).toNat
  · rw [toSymbol_inside hc]
    by_cases hin : s.engine.acc.toNat < tableSize s.engine.tsel
    · simp [tabRead_inside hin hin, hc, hin]
    · simp [tabRead_eq_none.mpr fun h => hin h.1, hc, hin, eq_comm]
  · simp [toSymbol_eq_none.mpr hc, hc, eq_comm]

/-- The commands that neither read a table at the accumulator nor name a symbol always complete, in every state. -/
theorem execOn_goesOn_of_ne {i : Instr} (hput : ∀ b, i ≠ .put b) (hchk : i ≠ .chk) (happ : i ≠ .app) :
    ∃ t, execOn T i s = .next t := by
  cases i with
  | put b => exact absurd rfl (hput b)
  | chk => exact absurd rfl hchk
  | app => exact absurd rfl happ
  | fin | val => exact foldGate_goesOn fun _ => ⟨_, rfl⟩
  | sts | usz _ | ump _ _ => exact ⟨_, rfl⟩
  | sel a =>
    simp only [execOn, execSel]
    split <;> exact ⟨_, rfl⟩
  | lkp n =>
    simp only [execOn, execLkp]
    split <;> exact ⟨_, rfl⟩
  | trd x r c =>
    simp only [execOn, execTrdOn]
    split <;> exact ⟨_, rfl⟩

theorem ne_fault_of_goesOn {o : Host.Outcome State Fault Refusal} (h : ∃ t, o = .next t) : o ≠ .fault f := by
  obtain ⟨t, rfl⟩ := h
  exact nofun

theorem ne_refused_of_goesOn {o : Host.Outcome State Fault Refusal} {r : Refusal} (h : ∃ t, o = .next t) :
    o ≠ .refused r := by
  obtain ⟨t, rfl⟩ := h
  exact nofun

theorem execOn_eq_fault {i : Instr} :
    execOn T i s = .fault f ↔ s.engine.phase = .active ∧
      ((∃ b x, i = .put b ∧ fromSymbol s.engine s.engine.alpha b = some x ∧
          ¬ (s.engine.acc.toNat < tableSize s.engine.tsel ∧ x.toNat < tableSize s.engine.tsel) ∧ f = .tabAddress) ∨
       ((i = .chk ∨ i = .app) ∧ ¬ s.engine.acc.toNat < (alphabetSize s.engine s.engine.alpha).toNat ∧
          f = .symbolIndex) ∨
       (i = .app ∧ s.engine.acc.toNat < (alphabetSize s.engine s.engine.alpha).toNat ∧
          ¬ s.engine.acc.toNat < tableSize s.engine.tsel ∧ f = .tabAddress)) := by
  cases i with
  | put b => simpa [execOn] using execPutOn_eq_fault
  | chk => simpa [execOn] using execChk_eq_fault
  | app => simpa [execOn] using execAppOn_eq_fault
  | sel _ | fin | val | sts | usz _ | ump _ _ | lkp _ | trd _ _ _ =>
    exact iff_of_false (ne_fault_of_goesOn (execOn_goesOn_of_ne nofun nofun nofun)) (by simp)

theorem execOn_ne_refused (T : Tables) (i : Instr) (s : State) (r : Refusal) : execOn T i s ≠ .refused r := by
  cases i with
  | put b =>
    refine foldGate_ne_refused ?_
    split
    · exact nofun
    · split <;> exact nofun
  | chk =>
    refine foldGate_ne_refused ?_
    split <;> exact nofun
  | app =>
    refine foldGate_ne_refused ?_
    split
    · exact nofun
    · split <;> exact nofun
  | sel _ | fin | val | sts | usz _ | ump _ _ | lkp _ | trd _ _ _ =>
    exact ne_refused_of_goesOn (execOn_goesOn_of_ne nofun nofun nofun)

end Stops

/-- Settles O44: `PUT`, `CHK` and `APP` stop where their reads are undefined, and every other command completes. -/
theorem stopsExactly : Obligations.StopsExactly := by
  unfold Obligations.StopsExactly
  simp only [exec_eq_execOn]
  exact ⟨fun _ _ _ => execOn_eq_fault, execOn_ne_refused hardwareTables⟩

/-! ## The canonical form of the space `UM` -/

theorem Memory.wfFrom_entry {lo k : Nat} {v : Byte} {rest : Memory} :
    Memory.wfFrom lo ((k, v) :: rest) = true ↔
      lo ≤ k ∧ k < Config.umapDepth ∧ v ≠ Memory.unlisted ∧ Memory.wfFrom (k + 1) rest = true := by
  simp only [Memory.wfFrom, Bool.and_eq_true, decide_eq_true_eq, and_assoc]

/-- Two memories that hold the same bytes in the whole space `UM`. -/
def Memory.ReadAlike (m m' : Memory) : Prop := ∀ a < Config.umapDepth, Memory.read m a = Memory.read m' a

theorem Memory.ReadAlike.symm {m m' : Memory} (h : m.ReadAlike m') : m'.ReadAlike m := fun a ha => (h a ha).symm

/-- The first entry of a canonical list is no redundant one. -/
theorem Memory.read_first_ne {lo k : Nat} {v : Byte} {rest : Memory} (h : Memory.wfFrom lo ((k, v) :: rest) = true) :
    Memory.read ((k, v) :: rest) k ≠ Memory.unlisted := by
  obtain ⟨-, -, hv, -⟩ := Memory.wfFrom_entry.mp h
  rwa [Memory.read_entry, if_pos rfl]

/-- A canonical list with an entry does not read as the empty one. -/
theorem Memory.not_readAlike_nil {lo k : Nat} {v : Byte} {rest : Memory}
    (h : Memory.wfFrom lo ((k, v) :: rest) = true) : ¬ Memory.ReadAlike ((k, v) :: rest) [] := fun hread =>
  Memory.read_first_ne h (hread k (Memory.wfFrom_entry.mp h).2.1)

/-- Of two canonical lists that read alike, neither begins below the other's first address, where that one reads as
unlisted. -/
theorem Memory.first_le_first {lo lo' k k' : Nat} {v v' : Byte} {rest rest' : Memory}
    (h : Memory.wfFrom lo ((k, v) :: rest) = true) (h' : Memory.wfFrom lo' ((k', v') :: rest') = true)
    (hread : Memory.ReadAlike ((k, v) :: rest) ((k', v') :: rest')) : k' ≤ k := by
  obtain ⟨-, hk, -, -⟩ := Memory.wfFrom_entry.mp h
  obtain ⟨-, hk', hv', hrest'⟩ := Memory.wfFrom_entry.mp h'
  by_contra hlt
  have hfrom : Memory.wfFrom k' ((k', v') :: rest') = true := Memory.wfFrom_entry.mpr ⟨le_rfl, hk', hv', hrest'⟩
  exact Memory.read_first_ne h ((hread k hk).trans (Memory.read_below hfrom (by omega)))

/-- Behind equal first addresses canonical lists that read alike still do. -/
theorem Memory.ReadAlike.tail {k : Nat} {v v' : Byte} {rest rest' : Memory}
    (h : Memory.wfFrom (k + 1) rest = true) (h' : Memory.wfFrom (k + 1) rest' = true)
    (hread : Memory.ReadAlike ((k, v) :: rest) ((k, v') :: rest')) : rest.ReadAlike rest' := by
  intro a ha
  by_cases hak : a = k
  · rw [Memory.read_below h (by omega), Memory.read_below h' (by omega)]
  · simpa only [Memory.read_entry, if_neg (Ne.symm hak)] using hread a ha

/-- In the canonical form equal contents are equal lists. -/
theorem Memory.ReadAlike.eq {lo lo' : Nat} {m m' : Memory} (hread : m.ReadAlike m')
    (h : Memory.wfFrom lo m = true) (h' : Memory.wfFrom lo' m' = true) : m = m' := by
  induction m generalizing lo lo' m' with
  | nil =>
    cases m' with
    | nil => rfl
    | cons => exact absurd hread.symm (Memory.not_readAlike_nil h')
  | cons kv rest ih =>
    cases m' with
    | nil => exact absurd hread (Memory.not_readAlike_nil h)
    | cons kv' rest' =>
      obtain ⟨k, v⟩ := kv
      obtain ⟨k', v'⟩ := kv'
      obtain rfl : k = k' := le_antisymm (Memory.first_le_first h' h hread.symm) (Memory.first_le_first h h' hread)
      obtain ⟨-, hk, -, hrest⟩ := Memory.wfFrom_entry.mp h
      obtain ⟨-, -, -, hrest'⟩ := Memory.wfFrom_entry.mp h'
      have hv : v = v' := by simpa only [Memory.read_entry, if_true] using hread k hk
      rw [hv, ih (hread.tail hrest hrest') hrest hrest']

/-- The indices of `UMAP` are the addresses of the space `UM` (R32). -/
theorem Memory.readAlike_of_umRead {m m' : Memory} (h : ∀ i : Nibble, umRead m i = umRead m' i) : m.ReadAlike m' := by
  intro a ha
  have := h (BitVec.ofNat 4 a)
  rwa [umRead, umRead, BitVec.toNat_ofNat, Nat.mod_eq_of_lt (b := 2 ^ 4) ha] at this

/-- Only `UMP` writes the map, and a store keeps the canonical form. -/
theorem Effect.wf {T : Tables} {i : Instr} {e e' : Engine} (h : Effect T i e e') (he : Memory.wf e.um = true) :
    Memory.wf e'.um = true := by
  cases h with
  | entry x b => exact Memory.wf_umWrite x b he
  | keep | openFold | sizeError | symbolError | symbol | append | size => exact he

theorem step_wf {s t : State} (hs : Memory.wf s.engine.um = true) (h : step s = .next t) :
    Memory.wf t.engine.um = true := by
  obtain heq | heq | ⟨i, he⟩ := step_engine h
  · rwa [heq]
  · rw [heq]; rfl
  · exact he.wf hs

/-- Settles O49: reset memory is the empty list, the one store keeps the form, and the form is extensional. -/
theorem memoryStaysCanonical : Obligations.MemoryStaysCanonical := by
  unfold Obligations.MemoryStaysCanonical
  exact ⟨rfl, fun _ _ => step_wf, fun _ _ hm hm' hread => (Memory.readAlike_of_umRead hread).eq hm hm'⟩

end Sys2Proof.Machine

/-! PROOF. Family 30_encoding: the decoder and the encoder are inverse to each other, which words are illegal, the
assembler, the clock, the form of responses, and the pseudo-command `UALPHA` (spec/30_encoding.md). -/

namespace Sys2Proof.Machine

/-! ## The fields of a word laid out in a format of R41 -/

section Fields
variable (op : BitVec 4)

theorem opField_op_4_8 (m : BitVec 4) (f : BitVec 8) : opField (op ++ m ++ f : Word) = op :=
  (extract_high (op ++ m) f 12 4 (by decide)).trans
    ((extract_high op m 4 4 (by decide)).trans (extract_whole op))

theorem opField_op_3_1_4_4 (m : BitVec 3) (t : BitVec 1) (r c : BitVec 4) :
    opField (op ++ m ++ t ++ r ++ c : Word) = op :=
  (extract_high (op ++ m ++ t ++ r) c 12 4 (by decide)).trans
    ((extract_high (op ++ m ++ t) r 8 4 (by decide)).trans
      ((extract_high (op ++ m) t 4 4 (by decide)).trans
        ((extract_high op m 3 4 (by decide)).trans (extract_whole op))))

theorem middle_op_4_8 (m : BitVec 4) (f : BitVec 8) : (op ++ m ++ f : Word).extractLsb' 8 4 = m :=
  (extract_high (op ++ m) f 8 4 (by decide)).trans (extract_low op m)

theorem mbz_op_3_1_4_4 (m : BitVec 3) (t : BitVec 1) (r c : BitVec 4) :
    (op ++ m ++ t ++ r ++ c : Word).extractLsb' 9 3 = m :=
  (extract_high (op ++ m ++ t ++ r) c 9 3 (by decide)).trans
    ((extract_high (op ++ m ++ t) r 5 3 (by decide)).trans
      ((extract_high (op ++ m) t 1 3 (by decide)).trans (extract_low op m)))

theorem table_op_3_1_4_4 (m : BitVec 3) (t : BitVec 1) (r c : BitVec 4) :
    (op ++ m ++ t ++ r ++ c : Word).extractLsb' 8 1 = t :=
  (extract_high (op ++ m ++ t ++ r) c 8 1 (by decide)).trans
    ((extract_high (op ++ m ++ t) r 4 1 (by decide)).trans (extract_low (op ++ m) t))

theorem row_op_3_1_4_4 (m : BitVec 3) (t : BitVec 1) (r c : BitVec 4) :
    (op ++ m ++ t ++ r ++ c : Word).extractLsb' 4 4 = r :=
  (extract_high (op ++ m ++ t ++ r) c 4 4 (by decide)).trans (extract_low (op ++ m ++ t) r)

end Fields

section Words
variable {w : Word} {op : BitVec 4}

theorem eq_word_op_12 {m : BitVec 12} (ho : opField w = op) (hm : w.extractLsb' 0 12 = m) : (op ++ m : Word) = w := by
  subst ho hm
  exact word_of_op_12 w

theorem eq_word_op_10_2 {m : BitVec 10} (ho : opField w = op) (hm : w.extractLsb' 2 10 = m) :
    (op ++ m ++ w.extractLsb' 0 2 : Word) = w := by
  subst ho hm
  exact word_of_op_10_2 w

theorem eq_word_op_4_8 {m : BitVec 4} (ho : opField w = op) (hm : w.extractLsb' 8 4 = m) :
    (op ++ m ++ w.extractLsb' 0 8 : Word) = w := by
  subst ho hm
  exact word_of_op_4_8 w

theorem eq_word_op_3_1_4_4 {m : BitVec 3} (ho : opField w = op) (hm : w.extractLsb' 9 3 = m) :
    (op ++ m ++ w.extractLsb' 8 1 ++ w.extractLsb' 4 4 ++ w.extractLsb' 0 4 : Word) = w := by
  subst ho hm
  exact word_of_op_3_1_4_4 w

end Words

/-! ## The decoder and the encoder are inverse to each other -/

theorem decode_encode_trd {t : TableId} {r c : Nibble} (h : (Instr.trd t r c).wellFormed = true) :
    decode (encode (.trd t r c)) = .ok (.trd t r c) := by
  rw [encode, decode_trd (opField_op_3_1_4_4 0xB#4 0#3 t.code r c), mbz_op_3_1_4_4, table_op_3_1_4_4, row_op_3_1_4_4,
    extract_low (0xB#4 ++ 0#3 ++ t.code ++ r) c, TableId.ofCode_code, if_pos rfl, if_pos h]

theorem decode_encode {i : Instr} (h : i.wellFormed = true) : decode (encode i) = .ok i := by
  cases i with
  | sel a => cases a <;> rfl
  | put b =>
    rw [encode, decode_put (opField_op_4_8 0x2#4 0#4 b), middle_op_4_8, extract_low (0x2#4 ++ 0#4) b]
    exact checkMbz_of_eq _ rfl
  | fin | chk | val | app | sts => rfl
  | usz n =>
    rw [encode, decode_usz (opField_op_4_8 0x8#4 0#4 n), middle_op_4_8, extract_low (0x8#4 ++ 0#4) n]
    exact checkMbz_of_eq _ rfl
  | ump x b =>
    rw [encode, decode_ump (opField_op_4_8 0x9#4 x b), middle_op_4_8, extract_low (0x9#4 ++ x) b]
  | lkp n =>
    rw [encode, decode_lkp (opField_op_4_8 0xA#4 0#4 n), middle_op_4_8, extract_low (0xA#4 ++ 0#4) n]
    exact checkMbz_of_eq _ rfl
  | trd t r c => exact decode_encode_trd h

/-- Settles O7: each field that the decoder reads is the one that the encoder laid there. -/
theorem decodeOfEncode : Obligations.DecodeOfEncode := by
  unfold Obligations.DecodeOfEncode
  exact fun _ => decode_encode

theorem decode_trd_eq_ok {w : Word} {i : Instr} (ho : opField w = 0xB#4) :
    decode w = .ok i ↔ w.extractLsb' 9 3 = 0#3 ∧ i.wellFormed = true ∧
      .trd (.ofCode (w.extractLsb' 8 1)) (w.extractLsb' 4 4) (w.extractLsb' 0 4) = i := by
  rw [decode_trd ho]
  by_cases hm : w.extractLsb' 9 3 = 0#3
  · rw [if_pos hm]
    split
    · next hw => exact ⟨fun h => ⟨hm, Except.ok.inj h ▸ hw, Except.ok.inj h⟩, fun ⟨_, _, h⟩ => congrArg _ h⟩
    · next hw => exact ⟨nofun, fun ⟨_, hi, h⟩ => absurd (h ▸ hi) hw⟩
  · simp [hm]

/-- The fields that the decoder takes a word apart into, with the bits that it found to be zero, are the whole word. -/
theorem encode_eq_of_decode {w : Word} {i : Instr} (h : decode w = .ok i) : i.wellFormed = true ∧ encode i = w := by
  obtain ho | ho | ho | ho | ho | ho | ho | ho | ho | ho | ho | ho := opField_cases w
  · obtain ⟨hm, rfl⟩ := checkMbz_eq_ok.mp (decode_sel ho ▸ h)
    rw [encode, Alphabet.code_ofCode]
    exact ⟨rfl, eq_word_op_10_2 ho hm⟩
  · obtain ⟨hm, rfl⟩ := checkMbz_eq_ok.mp (decode_put ho ▸ h)
    exact ⟨rfl, eq_word_op_4_8 ho hm⟩
  · obtain ⟨hm, rfl⟩ := checkMbz_eq_ok.mp (decode_fin ho ▸ h)
    exact ⟨rfl, eq_word_op_12 ho hm⟩
  · obtain ⟨hm, rfl⟩ := checkMbz_eq_ok.mp (decode_chk ho ▸ h)
    exact ⟨rfl, eq_word_op_12 ho hm⟩
  · obtain ⟨hm, rfl⟩ := checkMbz_eq_ok.mp (decode_val ho ▸ h)
    exact ⟨rfl, eq_word_op_12 ho hm⟩
  · obtain ⟨hm, rfl⟩ := checkMbz_eq_ok.mp (decode_app ho ▸ h)
    exact ⟨rfl, eq_word_op_12 ho hm⟩
  · obtain ⟨hm, rfl⟩ := checkMbz_eq_ok.mp (decode_sts ho ▸ h)
    exact ⟨rfl, eq_word_op_12 ho hm⟩
  · obtain ⟨hm, rfl⟩ := checkMbz_eq_ok.mp (decode_usz ho ▸ h)
    exact ⟨rfl, eq_word_op_4_8 ho hm⟩
  · obtain rfl := Except.ok.inj (decode_ump ho ▸ h)
    exact ⟨rfl, eq_word_op_4_8 ho rfl⟩
  · obtain ⟨hm, rfl⟩ := checkMbz_eq_ok.mp (decode_lkp ho ▸ h)
    exact ⟨rfl, eq_word_op_4_8 ho hm⟩
  · obtain ⟨hm, hw, rfl⟩ := (decode_trd_eq_ok ho).mp h
    rw [encode, TableId.code_ofCode]
    exact ⟨hw, eq_word_op_3_1_4_4 ho hm⟩
  · cases (decode_reserved ho).symm.trans h

/-- The legal words are the encodings of the legal commands, and the decoder finds the command (R45). -/
theorem decode_eq_ok {w : Word} {i : Instr} : decode w = .ok i ↔ i.wellFormed = true ∧ encode i = w := by
  constructor
  · exact encode_eq_of_decode
  · rintro ⟨hw, rfl⟩
    exact decode_encode hw

/-- Settles O8: one half of `decode_eq_ok`. -/
theorem encodeOfDecode : Obligations.EncodeOfDecode := by
  unfold Obligations.EncodeOfDecode
  exact fun _ _ => decode_eq_ok.mp

/-- Settles O5: each of the words is the encoding of its command. -/
theorem specWordsDecode : Obligations.SpecWordsDecode := by
  unfold Obligations.SpecWordsDecode
  simp only [decode_eq_ok]
  decide

/-! ## The encoder by formulas -/

theorem word_op_4_8_eq_or (op m : BitVec 4) (f : BitVec 8) : (op ++ m ++ f : Word) =
    (op.setWidth 16 <<< 12) ||| (m.setWidth 16 <<< 8) ||| f.setWidth 16 :=
  (BitVec.setWidth_eq _).symm.trans BitVec.setWidth_append_append_eq_shiftLeft_setWidth_or

theorem encode_trd_eq_or (t : TableId) (r c : Nibble) : encode (.trd t r c) =
    0xB000#16 ||| (t.code.setWidth 16 <<< 8) ||| (r.setWidth 16 <<< 4) ||| c.setWidth 16 :=
  (BitVec.setWidth_eq _).symm.trans
    (BitVec.setWidth_append_append_append_eq_shiftLeft_setWidth_or (b := (0xB#4 ++ 0#3 : BitVec 7)))

/-- Settles O6: a field that stands above others in a word is the field shifted to its place (R45). -/
theorem encodingFormulas : Obligations.EncodingFormulas := by
  unfold Obligations.EncodingFormulas
  refine ⟨fun a => ?_, word_op_4_8_eq_or 0x2#4 0#4, rfl, rfl, rfl, rfl, rfl, word_op_4_8_eq_or 0x8#4 0#4,
    word_op_4_8_eq_or 0x9#4, word_op_4_8_eq_or 0xA#4 0#4, encode_trd_eq_or⟩
  cases a <;> rfl

/-! ## The rows of the opcode map and the illegal words -/

theorem row_mem_opcodeRows (i : Instr) : i.row ∈ opcodeRows := by
  cases i <;> simp [opcodeRows, Instr.row]

theorem row_matches_encode (i : Instr) : i.row.matches (encode i) = true := by
  cases i with
  | sel a => exact Laws.EncodingRow.sel a
  | put b => exact Laws.EncodingRow.put b
  | fin => exact Laws.EncodingRow.fin
  | chk => exact Laws.EncodingRow.chk
  | val => exact Laws.EncodingRow.val
  | app => exact Laws.EncodingRow.app
  | sts => exact Laws.EncodingRow.sts
  | usz n => exact Laws.EncodingRow.usz n
  | ump x b => exact Laws.EncodingRow.ump x b
  | lkp n => exact Laws.EncodingRow.lkp n
  | trd t r c => exact Laws.EncodingRow.trd t r c

theorem opcodeRow_matches_iff {row : OpcodeRow} {w : Word} :
    row.matches w = true ↔ w &&& row.mask = row.pattern := beq_iff_eq

/-- Two rows that ask for different bits under both masks have no word in common. -/
theorem opcodeRow_disjoint {a b : OpcodeRow} (h : a.pattern &&& b.mask ≠ b.pattern &&& a.mask) (w : Word) :
    ¬ (a.matches w = true ∧ b.matches w = true) := by
  rw [opcodeRow_matches_iff, opcodeRow_matches_iff]
  rintro ⟨ha, hb⟩
  apply h
  rw [← ha, ← hb, BitVec.and_assoc, BitVec.and_assoc, BitVec.and_comm a.mask]

theorem opcodeRows_pairwise :
    opcodeRows.Pairwise fun a b => a.pattern &&& b.mask ≠ b.pattern &&& a.mask := by decide

/-- A mask of the high bits shows those bits. -/
theorem high_of_mask {n m : Nat} {x p : BitVec n} {y : BitVec m}
    (h : (x ++ y) &&& (BitVec.allOnes n ++ 0#m) = p ++ 0#m) : x = p := by
  rw [BitVec.and_append, BitVec.and_allOnes, BitVec.and_zero] at h
  exact (append_inj.mp h).1

theorem fields_of_mask_sel {w : Word} (h : w &&& 0xFFFC#16 = 0x1000#16) :
    opField w = 0x1#4 ∧ w.extractLsb' 2 10 = 0 :=
  append_inj.mp (high_of_mask (p := 0x1#4 ++ 0#10)
    ((congrArg (· &&& 0xFFFC#16) (word_of_op_10_2 w)).trans h))

/-- The mask of a command with a byte operand shows the opcode and the bits that must be zero. -/
theorem fields_of_mask_byte {w : Word} {op : BitVec 4} (h : w &&& 0xFF00#16 = (op ++ 0#4 ++ 0#8 : Word)) :
    opField w = op ∧ w.extractLsb' 8 4 = 0 :=
  append_inj.mp (high_of_mask (p := op ++ 0#4) ((congrArg (· &&& 0xFF00#16) (word_of_op_4_8 w)).trans h))

theorem opField_of_mask_ump {w : Word} (h : w &&& 0xF000#16 = 0x9000#16) : opField w = 0x9#4 :=
  high_of_mask (p := 0x9#4) ((congrArg (· &&& 0xF000#16) (word_of_op_12 w)).trans h)

/-- The rows other than `TRD`'s check all that the decoder checks: the opcode and the bits that must be zero. -/
theorem decode_of_matches {row : OpcodeRow} {w : Word} (hr : row ∈ opcodeRows) (hw : row.matches w = true)
    (ht : row.mnemonic ≠ "TRD") : ∃ i : Instr, decode w = .ok i ∧ i.row = row := by
  have hwhole : ∀ p : Word, w &&& 0xFFFF#16 = p → w = p := fun p h => BitVec.and_allOnes.symm.trans h
  rw [opcodeRow_matches_iff] at hw
  simp only [opcodeRows, List.mem_cons, List.not_mem_nil, or_false] at hr
  obtain rfl | rfl | rfl | rfl | rfl | rfl | rfl | rfl | rfl | rfl | rfl := hr
  · obtain ⟨ho, hm⟩ := fields_of_mask_sel hw
    exact ⟨_, (decode_sel ho).trans (checkMbz_of_eq _ hm), rfl⟩
  · obtain ⟨ho, hm⟩ := fields_of_mask_byte (op := 0x2#4) hw
    exact ⟨_, (decode_put ho).trans (checkMbz_of_eq _ hm), rfl⟩
  · exact ⟨.fin, hwhole _ hw ▸ rfl, rfl⟩
  · exact ⟨.chk, hwhole _ hw ▸ rfl, rfl⟩
  · exact ⟨.val, hwhole _ hw ▸ rfl, rfl⟩
  · exact ⟨.app, hwhole _ hw ▸ rfl, rfl⟩
  · exact ⟨.sts, hwhole _ hw ▸ rfl, rfl⟩
  · obtain ⟨ho, hm⟩ := fields_of_mask_byte (op := 0x8#4) hw
    exact ⟨_, (decode_usz ho).trans (checkMbz_of_eq _ hm), rfl⟩
  · exact ⟨_, decode_ump (opField_of_mask_ump hw), rfl⟩
  · obtain ⟨ho, hm⟩ := fields_of_mask_byte (op := 0xA#4) hw
    exact ⟨_, (decode_lkp ho).trans (checkMbz_of_eq _ hm), rfl⟩
  · exact absurd rfl ht

theorem row_matches_of_decode {w : Word} {i : Instr} (h : decode w = .ok i) : i.row.matches w = true := by
  obtain ⟨-, rfl⟩ := decode_eq_ok.mp h
  exact row_matches_encode i

theorem decode_error_of_no_row {w : Word} (h : ∀ row ∈ opcodeRows, row.matches w = false) :
    ∃ e, decode w = .error e := by
  cases hd : decode w with
  | error e => exact ⟨e, rfl⟩
  | ok i => exact absurd (row_matches_of_decode hd) (by simp [h _ (row_mem_opcodeRows i)])

/-- Settles O9: the masks tell the rows apart, and the decoder checks of a word what its row fixes. -/
theorem opcodeRowsClassifyWords : Obligations.OpcodeRowsClassifyWords := by
  unfold Obligations.OpcodeRowsClassifyWords
  intro w
  exact ⟨opcodeRows_pairwise.imp fun h => opcodeRow_disjoint h w,
    fun i hi => ⟨row_mem_opcodeRows i, row_matches_of_decode hi⟩, decode_error_of_no_row,
    fun _ => decode_of_matches⟩

theorem checkMbz_error_iff {n : Nat} {m : BitVec n} {i : Instr} : (∃ e, checkMbz m i = .error e) ↔ m ≠ 0 := by
  by_cases hm : m = 0
  · rw [checkMbz_of_eq i hm]; simp [hm]
  · rw [checkMbz_of_ne i hm]; simp only [Except.error.injEq, exists_eq', ne_eq, hm, not_false_eq_true]

/-- Only table 0 has coordinates outside it (R43 c). -/
theorem trd_illFormed_iff {t : BitVec 1} {r c : Nibble} :
    (Instr.trd (.ofCode t) r c).wellFormed = false ↔ t = 0 ∧ (10#4 ≤ r ∨ 10#4 ≤ c) := by
  revert t r c
  decide

theorem decode_trd_error_iff {w : Word} (ho : opField w = 0xB#4) :
    (∃ e, decode w = .error e) ↔ w.extractLsb' 9 3 ≠ 0 ∨
      w.extractLsb' 8 1 = 0 ∧ (10#4 ≤ w.extractLsb' 4 4 ∨ 10#4 ≤ w.extractLsb' 0 4) := by
  rw [decode_trd ho, ← trd_illFormed_iff]
  by_cases hm : w.extractLsb' 9 3 = 0#3
  · rw [if_pos hm]
    split <;> simp_all
  · simp [hm]

/-! ## Clocks -/

theorem step_of_idle_port {s : State} {p : PortIn} {rest : List PortIn} (hi : s.inbox = p :: rest)
    (hr : p.rst = false) (hv : p.cmdValid = false) : step s = .next (State.idleClock { s with inbox := rest }) := by
  simp [step, stepBy, hi, clockBy, hr, hv]

theorem step_of_empty_inbox {s : State} (hi : s.inbox = []) : step s = .next s.idleClock := by
  simp [step, stepBy, hi]

theorem step_of_illegal_word {s : State} {p : PortIn} {rest : List PortIn} {e : DecodeError} (hi : s.inbox = p :: rest)
    (hr : p.rst = false) (hv : p.cmdValid = true) (hd : decode p.cmd = .error e) :
    step s = .next (State.answerIllegal { s with inbox := rest }) := by
  simp [step, stepBy, hi, clockBy, hr, hv, runCommandBy, hd]

/-- Settles O3: without a reset and a command the clock only withdraws the response. -/
theorem idleClockHoldsState : Obligations.IdleClockHoldsState := by
  unfold Obligations.IdleClockHoldsState
  exact ⟨fun _ _ _ => step_of_idle_port, fun _ => step_of_empty_inbox⟩

/-- Settles O4: `stepBy_command` for the commands of the hardware. -/
theorem stepRunsDecodedCommand : Obligations.StepRunsDecodedCommand := by
  unfold Obligations.StepRunsDecodedCommand
  exact fun _ _ _ _ => stepBy_command

/-- Settles O10: the decoder's checks by opcode, and the one answer to all of its rejections. -/
theorem illegalWordsExactly : Obligations.IllegalWordsExactly := by
  unfold Obligations.IllegalWordsExactly
  refine ⟨fun w => ?_, fun _ _ _ _ => step_of_illegal_word⟩
  obtain ho | ho | ho | ho | ho | ho | ho | ho | ho | ho | ho | ho := opField_cases w
  · rw [decode_sel ho, checkMbz_error_iff]; simp [ho]
  · rw [decode_put ho, checkMbz_error_iff]; simp [ho]
  · rw [decode_fin ho, checkMbz_error_iff]; simp [ho]
  · rw [decode_chk ho, checkMbz_error_iff]; simp [ho]
  · rw [decode_val ho, checkMbz_error_iff]; simp [ho]
  · rw [decode_app ho, checkMbz_error_iff]; simp [ho]
  · rw [decode_sts ho, checkMbz_error_iff]; simp [ho]
  · rw [decode_usz ho, checkMbz_error_iff]; simp [ho]
  · rw [decode_ump ho]; simp [ho]
  · rw [decode_lkp ho, checkMbz_error_iff]; simp [ho]
  · rw [decode_trd_error_iff ho]; simp [ho]
  · rw [decode_reserved ho]; simp [ho]

/-! ## Responses -/

/-- A presented word, legal or not, leaves the state of some answer (R46). -/
theorem step_presented {s t : State} {p : PortIn} {rest : List PortIn} (hi : s.inbox = p :: rest) (hr : p.rst = false)
    (hv : p.cmdValid = true) (h : step s = .next t) :
    ∃ e r, t = State.answer { s with inbox := rest } e r := by
  cases hd : decode p.cmd with
  | error e =>
    rw [step_of_illegal_word hi hr hv hd] at h
    cases h
    exact ⟨_, _, rfl⟩
  | ok i =>
    rw [step, stepBy_command hi hr hv hd] at h
    obtain ⟨e, r, rfl, -⟩ := exec_effect h
    exact ⟨e, r, rfl⟩

/-- Settles O12: a presented word leaves the state of one answer. -/
theorem everyCommandAnswersOnce : Obligations.EveryCommandAnswersOnce := by
  unfold Obligations.EveryCommandAnswersOnce
  refine ⟨fun s t p rest hi hr hv h => ?_,
    fun st a d => ⟨respond_status st a d, respond_aux st a d, respond_data st a d⟩⟩
  obtain ⟨e, r, rfl⟩ := step_presented hi hr hv h
  exact ⟨r, rfl, rfl, rfl⟩

/-- An outcome that, where it goes on, shows a response laid out by `respond` (R46). -/
def Responds (o : Host.Outcome State Fault Refusal) : Prop :=
  ∀ t, o = .next t → ∃ st a d, t.rsp = some (respond st a d)

theorem Responds.answer {s : State} {e : Engine} {st : Status} {a : Nibble} {d : Byte} :
    Responds (.next (s.answer e (respond st a d))) := by
  rintro _ ⟨⟩
  exact ⟨st, a, d, rfl⟩

theorem Responds.fault {f : Fault} : Responds (.fault f) := nofun

/-- The phase gate's own answers are responses too (R112). -/
theorem Responds.foldGate {s : State} {body : Host.Outcome State Fault Refusal} (h : Responds body) :
    Responds (foldGate s body) := by
  unfold Machine.foldGate
  split
  · exact .answer
  · exact .answer
  · exact .answer
  · exact h

theorem exec_responds (i : Instr) (s : State) : Responds (exec i s) := by
  cases i with
  | sel a =>
    simp only [exec, execSel]
    split
    · exact .answer
    · exact .answer
  | put b =>
    refine .foldGate ?_
    split
    · exact .answer
    · split
      · exact .fault
      · exact .answer
  | fin | val => exact .foldGate (.answer)
  | chk =>
    refine .foldGate ?_
    split
    · exact .fault
    · exact .answer
  | app =>
    refine .foldGate ?_
    split
    · exact .fault
    · split
      · exact .fault
      · exact .answer
  | sts | usz _ | ump _ _ => exact .answer
  | lkp n =>
    simp only [exec, execLkp]
    split
    · exact .answer
    · exact .answer
  | trd t r c =>
    simp only [exec, execTrd, execTrdOn]
    split
    · exact .answer
    · exact .answer

/-- What a step shows is the response of a command or nothing. -/
theorem step_rsp {s t : State} {r : Word} (h : step s = .next t) (hr : t.rsp = some r) :
    ∃ st a d, r = respond st a d := by
  obtain ⟨-, rfl⟩ | ⟨p, rest, -, ⟨-, rfl⟩ | ⟨-, -, rfl⟩ | ⟨-, -, e, -, rfl⟩ | ⟨-, -, i, -, hx⟩⟩ := stepBy_cases h
  · cases hr
  · cases hr
  · cases hr
  · cases hr; exact ⟨.illegalCmd, 0, 0x00#8, rfl⟩
  · obtain ⟨st, a, d, hrsp⟩ := exec_responds i _ t hx
    exact ⟨st, a, d, Option.some.inj (hr.symm.trans hrsp)⟩

/-- Settles O13: every response has one of the five statuses in its status field (R47). -/
theorem statusCodesAreTheFive : Obligations.StatusCodesAreTheFive := by
  unfold Obligations.StatusCodesAreTheFive
  intro s t r h hr
  obtain ⟨st, a, d, rfl⟩ := step_rsp h hr
  rw [respond_status]
  exact st.code_le

/-! ## The pseudo-command `UALPHA` -/

theorem run_of_step {M : Host.Core} {s t : M.State} (h : M.step s = .next t) (n : Nat) :
    M.run (n + 1) s = M.run n t := by
  rw [Host.Core.run, h]

/-- A run whose next clock presents a legal command begins with that command. -/
theorem run_of_exec {s t : State} {i : Instr} {is : List Instr} {rest : List PortIn} (hw : i.wellFormed = true)
    (hi : s.inbox = present (i :: is) ++ rest) (h : exec i { s with inbox := present is ++ rest } = .next t) (n : Nat) :
    Sys2Proof.core.run (n + 1) s = Sys2Proof.core.run n t :=
  run_of_step (M := Sys2Proof.core) ((stepBy_command hi rfl rfl (decode_encode hw)).trans h) n

/-- The map after `UMP first, c₀; UMP first + 1, c₁; …` (R50). -/
def Memory.load (first : Nat) : List Byte → Memory → Memory
  | [], m => m
  | c :: cs, m => Memory.load (first + 1) cs (umWrite m (BitVec.ofNat 4 first) c)

theorem umWrite_ofNat (m : Memory) {k : Nat} (hk : k < 16) (v : Byte) :
    umWrite m (BitVec.ofNat 4 k) v = Memory.write m k v := by
  rw [umWrite, BitVec.toNat_ofNat, Nat.mod_eq_of_lt hk]

/-- Loading leaves every address alone that it does not name. -/
theorem Memory.read_load_outside {first : Nat} {cs : List Byte} {m : Memory} (hle : first + cs.length ≤ 16) {k : Nat}
    (hk : k < first ∨ first + cs.length ≤ k) : Memory.read (Memory.load first cs m) k = Memory.read m k := by
  induction cs generalizing first m with
  | nil => rfl
  | cons c cs ih =>
    simp only [List.length_cons] at hle hk
    rw [Memory.load, ih (by omega) (by omega), umWrite_ofNat m (by omega), Memory.read_write_ne c m (by omega)]

/-- The bytes loaded stand in the map in their order. -/
theorem Memory.read_load {first : Nat} {cs : List Byte} {m : Memory} (hm : Memory.wf m = true)
    (hle : first + cs.length ≤ 16) {k : Nat} {c : Byte} (hk : cs[k]? = some c) :
    Memory.read (Memory.load first cs m) (first + k) = c := by
  induction cs generalizing first m k with
  | nil => cases hk
  | cons b cs ih =>
    simp only [List.length_cons] at hle
    rw [Memory.load]
    cases k with
    | zero =>
      obtain rfl : b = c := Option.some.inj hk
      rw [Memory.read_load_outside (by omega) (.inl (by omega)), umWrite_ofNat m (by omega),
        Memory.read_write hm, if_pos (Nat.add_zero first)]
    | succ k =>
      rw [show first + (k + 1) = first + 1 + k by omega]
      exact ih (Memory.wf_umWrite _ b hm) (by omega) hk

/-- The `UMP`s of `UALPHA` while no fold is open: each fills its entry and is answered 0x0000. -/
theorem run_pseudoMap {s : State} {first : Nat} {cs : List Byte} {rest : List PortIn}
    (hi : s.inbox = present (pseudoMap first cs) ++ rest) (hclosed : s.engine.closeFold = s.engine) :
    ∃ t, Sys2Proof.core.run cs.length s = .next t ∧ t.inbox = rest ∧
      t.engine = { s.engine with um := Memory.load first cs s.engine.um } ∧
      t.trace = s.trace ++ List.replicate cs.length 0x0000#16 := by
  induction cs generalizing s first with
  | nil => exact ⟨s, rfl, hi, rfl, (List.append_nil _).symm⟩
  | cons c cs ih =>
    have hrun := run_of_exec (i := .ump (BitVec.ofNat 4 first) c) rfl hi rfl cs.length
    obtain ⟨t, ht, hbox, heng, htrace⟩ := ih (first := first + 1) (s := State.answer
      { s with inbox := present (pseudoMap (first + 1) cs) ++ rest }
      (s.engine.setUm (BitVec.ofNat 4 first) c).closeFold (respond .ok 0 0x00#8)) rfl rfl
    refine ⟨t, hrun.trans ht, hbox, ?_, ?_⟩
    · rw [heng, ← hclosed]
      rfl
    · rw [htrace, State.answer_trace, List.append_assoc]
      rfl

/-- Settles O27: `USZ` declares the number and closes the fold, the `UMP`s fill the entries. -/
theorem pseudoUserAlphabetLoadsMap : Obligations.PseudoUserAlphabetLoadsMap := by
  unfold Obligations.PseudoUserAlphabetLoadsMap
  intro s cs rest hm hle hi
  have hrun := run_of_exec (i := .usz (BitVec.ofNat 8 cs.length)) rfl hi rfl cs.length
  obtain ⟨t, ht, hbox, heng, htrace⟩ := run_pseudoMap (first := 0) (cs := cs) (rest := rest) (s := State.answer
    { s with inbox := present (pseudoMap 0 cs) ++ rest }
    (s.engine.setUsize (BitVec.ofNat 8 cs.length)).closeFold (respond .ok 0 0x00#8)) rfl rfl
  have hum : t.engine.um = Memory.load 0 cs s.engine.um := by rw [heng]; rfl
  refine ⟨t, hrun.trans ht, hbox, by rw [heng]; rfl, by rw [heng]; rfl, by rw [heng]; rfl, fun k c hk => ?_,
    fun k hk => ?_, ?_⟩
  · rw [hum, ← Nat.zero_add k]
    exact Memory.read_load hm (by omega) hk
  · rw [hum]
    exact Memory.read_load_outside (by omega) (.inr (by omega))
  · rw [htrace, State.answer_trace, List.append_assoc]
    rfl

/-! ## The assembler -/

/-- A character without meaning of its own between the words of a line: no quote and no semicolon (R49). -/
def isBare (c : Char) : Bool := Quoting.next .outside c == .outside && c != ';'

theorem isBare_iff {c : Char} : isBare c = true ↔ Quoting.next .outside c = .outside ∧ c ≠ ';' := by
  simp [isBare]

/-- Without quotes every character stands outside them. -/
theorem markOutside_bare {cs : List Char} (h : ∀ c ∈ cs, isBare c = true) :
    markOutside .outside cs = cs.map fun c => (c, true) := by
  induction cs with
  | nil => rfl
  | cons c cs ih =>
    obtain ⟨hc, hcs⟩ := List.forall_mem_cons.mp h
    rw [markOutside, (isBare_iff.mp hc).1, ih hcs]
    rfl

theorem dropComment_bare {cs : List Char} (h : ∀ c ∈ cs, isBare c = true) : dropComment cs = cs := by
  have hall : ∀ p ∈ cs.map fun c => (c, true), (!(p.2 && p.1 == ';')) = true := by
    simpa using fun c hc => (isBare_iff.mp (h c hc)).2
  rw [dropComment, markOutside_bare h, List.takeWhile_eq_self_iff.mpr hall, List.map_map]
  exact List.map_id cs

theorem trimBlanks_of_ends {c d : Char} (cs : List Char) (hc : isBlank c = false) (hd : isBlank d = false) :
    trimBlanks (c :: (cs ++ [d])) = c :: (cs ++ [d]) := by
  simp [trimBlanks, hc, hd]

theorem trimBlanks_blank (cs : List Char) : trimBlanks (' ' :: cs) = trimBlanks cs := rfl

/-- An operand without a comma, before a comma. -/
theorem cutMarked_comma {cs : List Char} (h : ',' ∉ cs) (rest : List (Char × Bool)) :
    cutMarked (cs.map (fun c => (c, true)) ++ (',', true) :: rest) = cs :: cutMarked rest := by
  induction cs with
  | nil => rfl
  | cons c cs ih =>
    obtain ⟨hc, hcs⟩ := not_or.mp (mt List.mem_cons.mpr h)
    simp [cutMarked, ih hcs, Ne.symm hc]

/-- An operand without a comma, the last one. -/
theorem cutMarked_last {cs : List Char} (h : ',' ∉ cs) : cutMarked (cs.map fun c => (c, true)) = [cs] := by
  induction cs with
  | nil => rfl
  | cons c cs ih =>
    obtain ⟨hc, hcs⟩ := not_or.mp (mt List.mem_cons.mpr h)
    simp [cutMarked, ih hcs, Ne.symm hc]

/-! ### Byte operands as `renderLine` writes them -/

/-- Byte operands, the first one given apart, with a comma and a blank between them. -/
def hexOperands : Byte → List Byte → List Char
  | b, [] => renderByte b
  | b, b' :: bs => renderByte b ++ ',' :: ' ' :: hexOperands b' bs

theorem isBare_hexDigit (v : Nibble) : isBare (hexDigit v) = true := by revert v; decide

theorem renderByte_bare (b : Byte) : ∀ c ∈ renderByte b, isBare c = true := by
  simp only [renderByte, List.forall_mem_cons, isBare_hexDigit]
  exact ⟨rfl, rfl, trivial, trivial, nofun⟩

theorem comma_not_mem_renderByte (b : Byte) : ',' ∉ renderByte b := by
  have hdigit : ∀ v : Nibble, ',' ≠ hexDigit v := by decide
  simp [renderByte, hdigit]

theorem trimBlanks_renderByte (b : Byte) : trimBlanks (renderByte b) = renderByte b :=
  trimBlanks_of_ends ['x', hexDigit _] rfl (hexDigit_not_blank _)

theorem hexOperands_bare (b : Byte) (bs : List Byte) : ∀ c ∈ hexOperands b bs, isBare c = true := by
  induction bs generalizing b with
  | nil => exact renderByte_bare b
  | cons b' bs ih =>
    simp only [hexOperands, List.forall_mem_append, List.forall_mem_cons]
    exact ⟨renderByte_bare b, rfl, rfl, ih b'⟩

/-- Operands begin with a digit and end with one. -/
theorem hexOperands_ends (b : Byte) (bs : List Byte) :
    ∃ cs d, hexOperands b bs = '0' :: (cs ++ [d]) ∧ isBlank d = false := by
  induction bs generalizing b with
  | nil => exact ⟨['x', hexDigit _], _, rfl, hexDigit_not_blank _⟩
  | cons b' bs ih =>
    obtain ⟨cs, d, hcs, hd⟩ := ih b'
    refine ⟨['x', hexDigit (b.extractLsb' 4 4), hexDigit (b.extractLsb' 0 4), ',', ' ', '0'] ++ cs, d, ?_, hd⟩
    rw [hexOperands, hcs]
    rfl

/-- Every operand after the first keeps the blank in front of it. -/
theorem cutMarked_hexOperands {lead : List Char} (hlead : ',' ∉ lead) (b : Byte) (bs : List Byte) :
    cutMarked ((lead ++ hexOperands b bs).map fun c => (c, true)) =
      (lead ++ renderByte b) :: bs.map fun b => ' ' :: renderByte b := by
  have hb : ',' ∉ lead ++ renderByte b := by simp [hlead, comma_not_mem_renderByte]
  induction bs generalizing lead b with
  | nil => exact cutMarked_last hb
  | cons b' bs ih =>
    have hsplit : lead ++ hexOperands b (b' :: bs) = (lead ++ renderByte b) ++ ',' :: ([' '] ++ hexOperands b' bs) := by
      simp [hexOperands]
    rw [hsplit, List.map_append, List.map_cons, cutMarked_comma hb,
      ih (lead := [' ']) (by decide) b' (by simp [comma_not_mem_renderByte])]
    rfl

theorem parseOperands_hexOperands (b : Byte) (bs : List Byte) :
    parseOperands (hexOperands b bs) = some ((b :: bs).map fun b => .number b.toNat) := by
  have hfirst : parseOperand (trimBlanks (renderByte b)) = some (.number b.toNat) := by
    rw [trimBlanks_renderByte, parseOperand_renderByte]
  have hrest : (bs.map fun b => ' ' :: renderByte b).mapM (fun o => parseOperand (trimBlanks o)) =
      some (bs.map fun b => .number b.toNat) := by
    induction bs with
    | nil => rfl
    | cons b' bs ih => simp [ih, trimBlanks_blank, trimBlanks_renderByte, parseOperand_renderByte]
  obtain ⟨cs, d, hne, -⟩ := hexOperands_ends b bs
  rw [parseOperands, if_neg (by simp [hne]), markOutside_bare (hexOperands_bare b bs),
    ← List.nil_append (hexOperands b bs), cutMarked_hexOperands (by simp), List.nil_append]
  simp [hfirst, hrest]

/-! ### Lines -/

/-- A line of a mnemonic and byte operands stands for what the assembler makes of the mnemonic and the operands. -/
theorem assembleLine_hexOperands {w : Char} {m : String} {ws : List Char} {b : Byte} {bs : List Byte} {i : Instr}
    (hall : (w :: ws).all (fun c => isBare c && !isBlank c) = true) (hm : mnemonicNames.lookup (w :: ws) = some m)
    (h : assemble m ((b :: bs).map fun b => .number b.toNat) = some i) :
    assembleLine (w :: ws ++ ' ' :: hexOperands b bs) = some [i] := by
  have hbare : ∀ c ∈ w :: ws, isBare c = true ∧ isBlank c = false := by
    simpa only [List.all_eq_true, Bool.and_eq_true, Bool.not_eq_true'] using hall
  obtain ⟨cs, d, hends, hd⟩ := hexOperands_ends b bs
  have hcomment : dropComment (w :: ws ++ ' ' :: hexOperands b bs) = w :: ws ++ ' ' :: hexOperands b bs :=
    dropComment_bare (List.forall_mem_append.mpr
      ⟨fun c hc => (hbare c hc).1, List.forall_mem_cons.mpr ⟨rfl, hexOperands_bare b bs⟩⟩)
  have hline : trimBlanks (w :: ws ++ ' ' :: hexOperands b bs) = w :: ws ++ ' ' :: hexOperands b bs := by
    have := trimBlanks_of_ends (ws ++ ' ' :: '0' :: cs) (hbare w (.head _)).2 hd
    simpa [hends] using this
  have hword : (w :: ws ++ ' ' :: hexOperands b bs).takeWhile (fun c => !isBlank c) = w :: ws := by
    rw [List.takeWhile_append_of_pos (by simpa using fun c hc => (hbare c hc).2)]
    exact List.append_nil _
  have htrim : trimBlanks (' ' :: hexOperands b bs) = hexOperands b bs := by
    rw [trimBlanks_blank, hends, trimBlanks_of_ends cs rfl hd]
  rw [assembleLine]
  dsimp only
  rw [hcomment, hline, hword, List.drop_left, htrim, hm, parseOperands_hexOperands]
  dsimp only
  rw [h]
  rfl

theorem zext8_toNat (v : Nibble) : (zext8 v).toNat = v.toNat := BitVec.toNat_setWidth_of_le (by decide)

theorem assemble_asmOperands {i : Instr} (hw : i.wellFormed = true) :
    assemble i.row.mnemonic (asmOperands i) = some i := by
  cases i with
  | sel a => rfl
  | fin | chk | val | app | sts => rfl
  | put b => simp [assemble, Instr.row, asmOperands, field_number]
  | usz n => simp [assemble, Instr.row, asmOperands, field_number]
  | lkp n => simp [assemble, Instr.row, asmOperands, field_number]
  | ump x b => simp [assemble, Instr.row, asmOperands, field_number]
  | trd t r c => simp [assemble, Instr.row, asmOperands, field_number, keepLegal, hw]

theorem assembleLine_renderLine {i : Instr} (hw : i.wellFormed = true) : assembleLine (renderLine i) = some [i] := by
  have hasm := assemble_asmOperands hw
  cases i with
  | sel a => cases a <;> rfl
  | fin | chk | val | app | sts => rfl
  | put b => exact assembleLine_hexOperands (w := 'P') (ws := ['U', 'T']) (bs := []) rfl rfl hasm
  | usz n => exact assembleLine_hexOperands (w := 'U') (ws := ['S', 'Z']) (bs := []) rfl rfl hasm
  | lkp n => exact assembleLine_hexOperands (w := 'L') (ws := ['K', 'P']) (bs := []) rfl rfl hasm
  | ump x b =>
    refine assembleLine_hexOperands (w := 'U') (ws := ['M', 'P']) (b := zext8 x) (bs := [b]) rfl rfl ?_
    simp only [List.map_cons, zext8_toNat]
    exact hasm
  | trd t r c =>
    have ht : (zext8 (t.code.setWidth 4)).toNat = t.code.toNat := by cases t <;> rfl
    refine assembleLine_hexOperands (w := 'T') (ws := ['R', 'D']) (b := zext8 (t.code.setWidth 4))
      (bs := [zext8 r, zext8 c]) rfl rfl ?_
    simp only [List.map_cons, zext8_toNat, ht]
    exact hasm

/-- A character as an operand is its byte as one (R84). -/
theorem field_char {c : Char} (hc : c.toNat < 128) :
    AsmOperand.field 8 (.char c) = some (BitVec.ofNat 8 c.toNat) := by
  rw [← field_number]
  simp only [AsmOperand.field, AsmOperand.value, charByte, if_pos hc, Option.map_some]

theorem assemble_put_char {c : Char} (hc : c.toNat < 128) :
    assemble "PUT" [.char c] = some (.put (BitVec.ofNat 8 c.toNat)) := by
  simp [assemble, field_char hc]

/-- Settles O11: the operands that `renderLine` writes are read back one by one, and the examples are evaluated. -/
theorem assemblerReadsCommands : Obligations.AssemblerReadsCommands := by
  unfold Obligations.AssemblerReadsCommands
  refine ⟨fun _ => assembleLine_renderLine, fun _ => assemble_asmOperands, rfl, rfl, rfl, rfl,
    fun _ => assemble_put_char, fun a => ?_⟩
  cases a <;> rfl

end Sys2Proof.Machine

/-! PROOF. Family 40_registry: the lookup, the contents and the invariants of the two tables, the commands `LKP` and
`TRD`, progress in the states of R22, and the block over any two tables (spec/40_registry.md). -/

namespace Sys2Proof.Machine

/-! ## The lookup -/

/-- Settles O15: the two registered sizes by evaluation, the others by `lookup_eq_none`. -/
theorem lookupMatchesExactly : Obligations.LookupMatchesExactly := by
  unfold Obligations.LookupMatchesExactly
  exact ⟨rfl, rfl, fun _ h10 h16 => lookup_eq_none.mpr ⟨h10, h16⟩⟩

/-! ## The contents of the tables -/

/-- The row strings of R66 as numbers of ten digits. -/
def table10Strings : List (BitVec 40) :=
  [0x0317598642#40, 0x7092154863#40, 0x4206871359#40, 0x1750983426#40, 0x6123045978#40, 0x3674209581#40,
   0x5869720134#40, 0x8945362017#40, 0x9438617205#40, 0x2581436790#40]

/-- The row strings of R67 as numbers of sixteen digits. -/
def table16Strings : List (BitVec 64) :=
  [0x02468ACE3175B9FD#64, 0x2064A8EC13579BDF#64, 0x4602CE8A7531FDB9#64, 0x6420ECA85713DF9B#64,
   0x8ACE0246B9FD3175#64, 0xA8EC20649BDF1357#64, 0xCE8A4602FDB97531#64, 0xECA86420DF9B5713#64,
   0x3175B9FD02468ACE#64, 0x13579BDF2064A8EC#64, 0x7531FDB94602CE8A#64, 0x5713DF9B6420ECA8#64,
   0xB9FD31758ACE0246#64, 0x9BDF1357A8EC2064#64, 0xFDB97531CE8A4602#64, 0xDF9B5713ECA86420#64]

theorem tableEntry_table10_eq_digit : ∀ r c : Nibble, r.toNat < 10 → c.toNat < 10 →
    tableEntry .table10 r c = (table10Strings.getD r.toNat 0).extractLsb' (4 * (9 - c.toNat)) 4 := by
  decide

theorem tableEntry_table16_eq_digit : ∀ r c : Nibble,
    tableEntry .table16 r c = (table16Strings.getD r.toNat 0).extractLsb' (4 * (15 - c.toNat)) 4 := by
  decide

theorem dbl_eq_getD : ∀ v : Nibble,
    dbl v = ([0, 2, 4, 6, 8, 10, 12, 14, 3, 1, 7, 5, 11, 9, 15, 13] : List Nibble).getD v.toNat 0 := by
  decide

/-- Every read of `TABLE16` is inside it. -/
theorem tabRead_table16 (T : Tables) (r c : Nibble) : tabRead T .table16 r c = some (T .table16 r c) :=
  tabRead_inside r.isLt c.isLt

/-- Settles O16: inside the table a read gives the entry, and the entries are the digits. -/
theorem tablesHoldRowStrings : Obligations.TablesHoldRowStrings := by
  unfold Obligations.TablesHoldRowStrings
  refine ⟨fun r c hr hc => ?_, fun r c => ?_, fun r c => ?_⟩
  · exact (tabRead_inside hr hc).trans (congrArg some (tableEntry_table10_eq_digit r c hr hc))
  · exact (tabRead_table16 _ r c).trans (congrArg some (tableEntry_table16_eq_digit r c))
  · exact (tabRead_table16 _ r c).trans (congrArg some (dbl_eq_getD (r ^^^ c)))

/-! ## The invariants of the tables -/

/-- The states of a table of size `n`. -/
def tableStates (n : Nat) : Finset Nibble := {x | x.toNat < n}

theorem mem_tableStates {n : Nat} {x : Nibble} : x ∈ tableStates n ↔ x.toNat < n := by simp [tableStates]

/-- An injection of the states of a table of size `n` into themselves meets each of them exactly once. -/
theorem existsUnique_of_injOn {n : Nat} {f : Nibble → Nibble} (hf : ∀ x : Nibble, x.toNat < n → (f x).toNat < n)
    (hinj : ∀ x y : Nibble, x.toNat < n → y.toNat < n → f x = f y → x = y) {v : Nibble} (hv : v.toNat < n) :
    ∃ x : Nibble, x.toNat < n ∧ f x = v ∧ ∀ y : Nibble, y.toNat < n → f y = v → y = x := by
  have hsurj : Set.SurjOn f (tableStates n) (tableStates n) := by
    refine Finset.surjOn_of_injOn_of_card_le f (fun x hx => ?_) (fun x hx y hy => ?_) le_rfl
    · exact mem_tableStates.mpr (hf x (mem_tableStates.mp hx))
    · exact hinj x y (mem_tableStates.mp hx) (mem_tableStates.mp hy)
  obtain ⟨x, hx, hxv⟩ := hsurj (mem_tableStates.mpr hv)
  have hxn : x.toNat < n := mem_tableStates.mp hx
  exact ⟨x, hxn, hxv, fun y hy hyv => hinj y x hy hxn (hyv.trans hxv.symm)⟩

/-- R62 asks for permutations; on finitely many states it is enough that no entry repeats in a row or a column. -/
theorem isLatin_of_injective {n : Nat} {T : Table}
    (hclosed : ∀ r c : Nibble, r.toNat < n → c.toNat < n → (T r c).toNat < n)
    (hrow : ∀ r c d : Nibble, r.toNat < n → c.toNat < n → d.toNat < n → T r c = T r d → c = d)
    (hcol : ∀ c r d : Nibble, c.toNat < n → r.toNat < n → d.toNat < n → T r c = T d c → r = d) :
    IsLatin n T where
  closed := hclosed
  row r _ hr := existsUnique_of_injOn (fun c => hclosed r c hr) fun c d => hrow r c d hr
  col c _ hc := existsUnique_of_injOn (f := (T · c)) (fun r hr => hclosed r c hr hc) fun r d => hcol c r d hc

/-! `TABLE10` is checked entry by entry. -/

theorem table10_row_inj : ∀ r c d : Nibble, r.toNat < 10 → c.toNat < 10 → d.toNat < 10 →
    tableEntry .table10 r c = tableEntry .table10 r d → c = d := by
  decide

theorem table10_col_inj : ∀ c r d : Nibble, c.toNat < 10 → r.toNat < 10 → d.toNat < 10 →
    tableEntry .table10 r c = tableEntry .table10 d c → r = d := by
  decide

theorem table10_zeroDiagonal : ZeroDiagonal 10 (hardwareTables .table10) := by
  unfold ZeroDiagonal
  decide

theorem table10_antiSymmetric : WeaklyTotallyAntiSymmetric 10 (hardwareTables .table10) := by
  unfold WeaklyTotallyAntiSymmetric
  decide

theorem table10_damm : IsDamm 10 (hardwareTables .table10) where
  latin := isLatin_of_injective (fun _ _ => tableEntry_lt (t := .table10)) table10_row_inj table10_col_inj
  zeroDiagonal := table10_zeroDiagonal
  antiSymmetric := table10_antiSymmetric

/-! `TABLE16` is Damm because `dbl` is linear over the exclusive or, injective, and fixes 0 only (R67). -/

theorem dbl_xor : ∀ x y : Nibble, dbl (x ^^^ y) = dbl x ^^^ dbl y := by decide

theorem dbl_eq_zero : ∀ x : Nibble, dbl x = 0 ↔ x = 0 := by decide

theorem dbl_eq_self : ∀ x : Nibble, dbl x = x ↔ x = 0 := by decide

theorem dbl_inj {x y : Nibble} (h : dbl x = dbl y) : x = y := by
  refine BitVec.xor_eq_zero_iff.mp ((dbl_eq_zero _).mp ?_)
  rw [dbl_xor]
  exact BitVec.xor_eq_zero_iff.mpr h

theorem table16_symmetric (r c : Nibble) : hardwareTables .table16 r c = hardwareTables .table16 c r :=
  congrArg dbl (BitVec.xor_comm r c)

theorem table16_row_inj {r c d : Nibble} (h : tableEntry .table16 r c = tableEntry .table16 r d) : c = d :=
  (BitVec.xor_right_inj r).mp (dbl_inj h)

theorem table16_latin : IsLatin 16 (hardwareTables .table16) := by
  refine isLatin_of_injective (fun _ _ => tableEntry_lt (t := .table16)) (fun r c d _ _ _ => table16_row_inj) ?_
  intro c r d _ _ _ h
  rw [table16_symmetric r, table16_symmetric d] at h
  exact table16_row_inj h

theorem table16_zeroDiagonal : ZeroDiagonal 16 (hardwareTables .table16) := by
  intro r c _ _
  exact (dbl_eq_zero _).trans BitVec.xor_eq_zero_iff

/-- Swapping `x` and `y` changes the state by `dbl z ^^^ dbl (dbl z)` with `z` their difference, which is 0 for `z` = 0
only. -/
theorem table16_antiSymmetric : WeaklyTotallyAntiSymmetric 16 (hardwareTables .table16) := by
  intro c x y _ _ _ hne h
  have hxor : dbl (dbl (c ^^^ x) ^^^ y) = dbl (dbl (c ^^^ y) ^^^ x) := h
  have hfix : dbl (x ^^^ y) = x ^^^ y := by
    have hsame : dbl x ^^^ y = dbl y ^^^ x := by
      simpa only [dbl_xor, BitVec.xor_assoc, BitVec.xor_right_inj] using dbl_inj hxor
    rw [← BitVec.xor_eq_zero_iff] at hsame ⊢
    rw [← hsame, dbl_xor]
    ac_rfl
  exact hne (BitVec.xor_eq_zero_iff.mp ((dbl_eq_self _).mp hfix))

theorem table16_damm : IsDamm 16 (hardwareTables .table16) :=
  ⟨table16_latin, table16_zeroDiagonal, table16_antiSymmetric⟩

/-- Settles O17: `TABLE10` entry by entry, `TABLE16` from the laws of `dbl`. -/
theorem hardwareTablesAreDamm : Obligations.HardwareTablesAreDamm := by
  unfold Obligations.HardwareTablesAreDamm
  exact ⟨table10_damm, table16_damm⟩

theorem table10_symmetric_pairs : ∀ r c : Nibble, r.toNat < c.toNat → c.toNat < 10 →
    (hardwareTables .table10 r c = hardwareTables .table10 c r ↔
      (r, c) ∈ ([(1, 4), (2, 5), (0, 9), (7, 9)] : List (Nibble × Nibble))) := by
  decide

theorem hardwareTables_damm (t : TableId) : IsDamm (tableSize t) (hardwareTables t) := by
  cases t with
  | table10 => exact table10_damm
  | table16 => exact table16_damm

theorem hardwareTables_zero_zero (t : TableId) : hardwareTables t 0 0 = 0 :=
  tableEntry_diag (by cases t <;> decide)

/-- A leading symbol of index 0 keeps the fold in the state 0 (R72 item 6). -/
theorem fold_cons_of_index_zero {A : AlphabetFns} {b : Byte} (s : List Byte) (hb : A.fromSymbol b = some 0) :
    fold hardwareTables A (b :: s) = fold hardwareTables A s := by
  unfold fold
  cases lookup A.size with
  | none => rfl
  | some t => simp only [foldFrom, hb, hardwareTables_zero_zero]

/-- Settles O18: items 1 to 3 are `hardwareTablesAreDamm`, item 5 is R63 read by rows, item 6 is R63 at state 0. -/
theorem checkedTableFacts : Obligations.CheckedTableFacts := by
  unfold Obligations.CheckedTableFacts
  refine ⟨⟨table10_damm.latin, table16_latin⟩, ⟨table10_zeroDiagonal, table16_zeroDiagonal⟩,
    ⟨table10_antiSymmetric, table16_antiSymmetric⟩, ⟨table10_symmetric_pairs, table16_symmetric⟩, ?_,
    hardwareTables_zero_zero, fun e a b => fold_cons_of_index_zero (A := alphabetFns e a)⟩
  intro t s x hs hx
  exact ((hardwareTables_damm t).zeroDiagonal s x hs hx).trans eq_comm

/-! ## The commands of the registry -/

theorem exec_lkp_of_some {n : Byte} {t : TableId} (h : lookup n = some t) (s : State) :
    exec (.lkp n) s = .next (s.answer s.engine (respond .ok (tableAux t) n)) := by
  simp only [exec, execLkp, h]

theorem exec_lkp_of_none {n : Byte} (h : lookup n = none) (s : State) :
    exec (.lkp n) s = .next (s.answer s.engine (respond .unsupportedSize 0 n)) := by
  simp only [exec, execLkp, h]

theorem decode_lkp_mustBeZero {w : Word} (ho : opField w = 0xA#4) (hm : w.extractLsb' 8 4 ≠ 0) :
    decode w = .error .mustBeZero :=
  (decode_lkp ho).trans (checkMbz_of_ne _ hm)

/-- Settles O19: the response by cases of the lookup. -/
theorem lkpReportsLookup : Obligations.LkpReportsLookup := by
  unfold Obligations.LkpReportsLookup
  exact ⟨exec_lkp_of_some (t := .table10) rfl, exec_lkp_of_some (t := .table16) rfl,
    fun _ s h10 h16 => exec_lkp_of_none (lookup_eq_none.mpr ⟨h10, h16⟩) s,
    fun _ => decode_lkp_mustBeZero⟩

theorem exec_trd_inside {t : TableId} {r c : Nibble} (hr : r.toNat < tableSize t) (hc : c.toNat < tableSize t)
    (s : State) :
    exec (.trd t r c) s = .next (s.answer s.engine (respond .ok 0 (zext8 (tableEntry t r c)))) := by
  simp only [exec, execTrd, execTrdOn, tabRead_inside hr hc, hardwareTables]

theorem exec_trd_outside {t : TableId} {r c : Nibble} (h : ¬ (r.toNat < tableSize t ∧ c.toNat < tableSize t))
    (s : State) : exec (.trd t r c) s = .next s.answerIllegal := by
  simp only [exec, execTrd, execTrdOn, tabRead_eq_none.mpr h]

theorem decode_trd_mustBeZero {w : Word} (ho : opField w = 0xB#4) (hm : w.extractLsb' 9 3 ≠ 0) :
    decode w = .error .mustBeZero :=
  (decode_trd ho).trans (if_neg hm)

/-- Settles O20: the response by cases of the table read. -/
theorem trdReadsTable : Obligations.TrdReadsTable := by
  unfold Obligations.TrdReadsTable
  exact ⟨fun _ _ _ s hr hc => exec_trd_inside hr hc s, fun _ _ _ s h => exec_trd_outside h s,
    fun _ => decode_trd_mustBeZero⟩

/-! ## No invariant state stops -/

/-- Settles O47: `step_goesOn`. -/
theorem invariantStatesNeverStop : Obligations.InvariantStatesNeverStop := by
  unfold Obligations.InvariantStatesNeverStop
  exact fun _ => step_goesOn

/-! ## The commands of a call, one rule each -/

section Commands
variable {T : Tables} {s : State}

theorem execOn_sel_supported {a : Alphabet} {t : TableId} (h : lookup (alphabetSize s.engine a) = some t) :
    execOn T (.sel a) s =
      .next (s.answer (s.engine.openFold a t) (respond .ok (tableAux t) (alphabetSize s.engine a))) := by
  simp only [execOn, execSel, h]

theorem execOn_sel_unsupported {a : Alphabet} (h : lookup (alphabetSize s.engine a) = none) :
    execOn T (.sel a) s = .next (s.raiseUnsupportedSize a (alphabetSize s.engine a)) := by
  simp only [execOn, execSel, h]

/-- After an error entry every fold command repeats the recorded error (R112, R145). -/
theorem execOn_recorded {i : Instr} {k : ErrorKind} (hi : isFoldCommand i = true) (hp : s.engine.phase = k.phase) :
    execOn T i s = .next (s.answerSticky k) := by
  have hgate : ∀ body, foldGate s body = .next (s.answerSticky k) := by
    intro body
    unfold foldGate
    cases k <;> rw [hp] <;> rfl
  cases i with
  | put | fin | chk | val | app => exact hgate _
  | sel | sts | usz | ump | lkp | trd => cases hi

theorem execOn_put_rejected {b : Byte} (ha : s.engine.phase = .active)
    (hx : fromSymbol s.engine s.engine.alpha b = none) : execOn T (.put b) s = .next (s.raiseInvalidSymbol b) := by
  rw [execOn, execPutOn, foldGate_active _ ha, hx]

/-- In an open fold an accepted symbol advances the accumulator by one table entry (R114). -/
theorem execOn_put_accepted {b : Byte} {x : Nibble} (hs : s.Inv) (ha : s.engine.phase = .active)
    (hx : fromSymbol s.engine s.engine.alpha b = some x) :
    execOn T (.put b) s =
      .next (s.answer (s.engine.setAcc (T s.engine.tsel s.engine.acc x)) (respond .ok 0 0x00#8)) := by
  rw [execOn, execPutOn, foldGate_active _ ha, hx]
  dsimp only
  rw [tabRead_inside (hs.acc_lt ha) (hs.index_lt ha hx)]

/-- In an open fold each reading command answers its datum of the accumulator (R115 to R118). -/
theorem execOn_read_open (x : ReadCommand) (hs : s.Inv) (ha : s.engine.phase = .active) :
    ∃ e, execOn T x.instr s =
      .next (s.answer e (respond .ok 0 (x.data (alphabetFns s.engine s.engine.alpha) s.engine.acc))) := by
  have hsymbol := toSymbol_inside (hs.openFold ha).2
  cases x with
  | fin | val => exact ⟨_, foldGate_active _ ha⟩
  | chk =>
    refine ⟨s.engine, (foldGate_active _ ha).trans ?_⟩
    rw [hsymbol]
    rfl
  | app =>
    refine ⟨s.engine.setAcc (T s.engine.tsel s.engine.acc s.engine.acc), (foldGate_active _ ha).trans ?_⟩
    rw [hsymbol, tabRead_inside (hs.acc_lt ha) (hs.acc_lt ha)]
    rfl

end Commands

/-! ## The engine simulates the fold -/

/-- The kind of error that the engine records for an error of the fold (R140). -/
def FoldError.kind : FoldError → ErrorKind
  | .invalidSymbol _ _ => .invalidSymbol
  | .unsupportedAlphabetSize _ => .unsupportedSize

/-- The payload that the engine records for an error of the fold (R142, R143). -/
def FoldError.info : FoldError → Byte
  | .invalidSymbol b _ => b
  | .unsupportedAlphabetSize n => n

theorem foldResponse_error (A : AlphabetFns) (a : Alphabet) (x : ReadCommand) (err : FoldError) :
    foldResponse A a x (.error err) = errorResponse err.kind a err.info := by
  cases err <;> rfl

/-- What an engine with an open fold becomes when the fold gives `r`. -/
def Engine.foldResult (e : Engine) : Except FoldError Nibble → Engine
  | .ok k => e.setAcc k
  | .error err => e.recordError err.kind e.alpha err.info

/-- The result of a fold overwrites the accumulator. -/
theorem Engine.foldResult_setAcc (e : Engine) (v : Nibble) (r : Except FoldError Nibble) :
    (e.setAcc v).foldResult r = e.foldResult r := by
  cases r <;> rfl

section Runs
variable {T : Tables} {s : State} {bytes : List Byte} {rest : List PortIn}

/-- A run of the block whose next clock presents a legal command begins with that command. -/
theorem runOn_of_execOn {t : State} {i : Instr} {is : List Instr} (hw : i.wellFormed = true)
    (hi : s.inbox = present (i :: is) ++ rest) (h : execOn T i { s with inbox := present is ++ rest } = .next t)
    (n : Nat) : (coreOn T).run (n + 1) s = (coreOn T).run n t :=
  run_of_step (M := coreOn T) ((stepBy_command hi rfl rfl (decode_encode hw)).trans h) n

/-- A run goes on from where its beginning ended. -/
theorem run_add {M : Host.Core} {s t : M.State} {m : Nat} (h : M.run m s = .next t) (n : Nat) :
    M.run (m + n) s = M.run n t := by
  induction m generalizing s with
  | zero => cases h; rw [Nat.zero_add]
  | succ m ih =>
    rw [Nat.succ_add, Host.Core.run]
    rw [Host.Core.run] at h
    split at h
    · next u _ => exact ih h
    · cases h
    · cases h

/-- The `PUT`s after an error entry: each repeats the error, and the engine stays as it is (R128). -/
theorem run_puts_recorded {k : ErrorKind} (hp : s.engine.phase = k.phase)
    (hi : s.inbox = present (pseudoPuts bytes) ++ rest) :
    ∃ u, (coreOn T).run bytes.length s = .next u ∧ u.inbox = rest ∧ u.engine = s.engine ∧
      u.trace = s.trace ++ List.replicate bytes.length (sticky k s.engine) := by
  induction bytes generalizing s with
  | nil => exact ⟨s, rfl, hi, rfl, (List.append_nil _).symm⟩
  | cons b bytes ih =>
    have hrun := runOn_of_execOn (T := T) (i := .put b) rfl hi (execOn_recorded rfl hp) bytes.length
    obtain ⟨u, hu, hbox, heng, htrace⟩ :=
      ih (s := State.answerSticky { s with inbox := present (pseudoPuts bytes) ++ rest } k) hp rfl
    exact ⟨u, hrun.trans hu, hbox, heng, htrace.trans (List.append_assoc s.trace [sticky k s.engine] _)⟩

/-- The `PUT`s of an open fold take the engine where the loop of `fold` goes (R100, R128). -/
theorem run_puts (hT : T.Closed) (hs : s.Inv) (ha : s.engine.phase = .active)
    (hi : s.inbox = present (pseudoPuts bytes) ++ rest) :
    ∃ u, (coreOn T).run bytes.length s = .next u ∧ u.inbox = rest ∧ u.Inv ∧
      u.engine = s.engine.foldResult
        (foldFrom (T s.engine.tsel) (alphabetFns s.engine s.engine.alpha) s.engine.acc bytes) ∧
      u.trace = s.trace ++ putResponses (alphabetFns s.engine s.engine.alpha) s.engine.alpha bytes := by
  induction bytes generalizing s with
  | nil => exact ⟨s, rfl, hi, hs, rfl, (List.append_nil _).symm⟩
  | cons b bytes ih =>
    rw [foldFrom, putResponses]
    cases hx : (alphabetFns s.engine s.engine.alpha).fromSymbol b with
    | none =>
      have hrun := runOn_of_execOn (T := T) (i := .put b) rfl hi (execOn_put_rejected ha hx) bytes.length
      obtain ⟨u, hu, hbox, heng, htrace⟩ := run_puts_recorded (T := T) (k := .invalidSymbol)
        (s := State.raiseInvalidSymbol { s with inbox := present (pseudoPuts bytes) ++ rest } b) rfl rfl
      have hinv : u.engine.Inv := heng ▸ Engine.inv_recordError_invalidSymbol hx
      exact ⟨u, hrun.trans hu, hbox, hinv, heng,
        htrace.trans (List.append_assoc s.trace [errorResponse .invalidSymbol s.engine.alpha b] _)⟩
    | some x =>
      have hv : (T s.engine.tsel s.engine.acc x).toNat < tableSize s.engine.tsel :=
        hT _ _ _ (hs.acc_lt ha) (hs.index_lt ha hx)
      have hA : alphabetFns (s.engine.setAcc (T s.engine.tsel s.engine.acc x)) s.engine.alpha =
          alphabetFns s.engine s.engine.alpha := alphabetFns_congr _ rfl rfl
      have hrun := runOn_of_execOn (i := .put b) rfl hi (execOn_put_accepted (T := T) hs ha hx) bytes.length
      obtain ⟨u, hu, hbox, hinv, heng, htrace⟩ := ih (s := State.answer
        { s with inbox := present (pseudoPuts bytes) ++ rest }
        (s.engine.setAcc (T s.engine.tsel s.engine.acc x)) (respond .ok 0 0x00#8)) (hs.setAcc ha hv) ha rfl
      simp only [State.answer_engine, State.answer_trace, Engine.setAcc_alpha, Engine.setAcc_tsel,
        Engine.setAcc_acc, hA, Engine.foldResult_setAcc, List.append_assoc] at heng htrace
      exact ⟨u, hrun.trans hu, hbox, hinv, heng, htrace⟩

/-- `SEL a` and the `PUT`s of a call, from any state (R128): the fold that `SEL a` opens becomes the result of `fold`.
For an unsupported size no fold opens, and the table named here plays no part in the result. -/
theorem run_sel_puts (hT : T.Closed) {a : Alphabet} (hi : s.inbox = present (.sel a :: pseudoPuts bytes) ++ rest) :
    ∃ u, (coreOn T).run (bytes.length + 1) s = .next u ∧ u.inbox = rest ∧ u.Inv ∧
      u.engine = (s.engine.openFold a ((lookup (alphabetSize s.engine a)).getD .table10)).foldResult
        (fold T (alphabetFns s.engine a) bytes) ∧
      u.trace = s.trace ++ streamResponses (alphabetFns s.engine a) a bytes := by
  unfold fold streamResponses
  cases hl : lookup (alphabetFns s.engine a).size with
  | none =>
    have hrun := runOn_of_execOn (T := T) (i := .sel a) rfl hi (execOn_sel_unsupported hl) bytes.length
    obtain ⟨u, hu, hbox, heng, htrace⟩ := run_puts_recorded (T := T) (k := .unsupportedSize)
      (s := State.raiseUnsupportedSize { s with inbox := present (pseudoPuts bytes) ++ rest } a
        (alphabetSize s.engine a)) rfl rfl
    have hinv : u.engine.Inv := heng ▸ Engine.inv_recordError_unsupportedSize hl
    exact ⟨u, hrun.trans hu, hbox, hinv, heng, htrace.trans
      (List.append_assoc s.trace [errorResponse .unsupportedSize a (alphabetSize s.engine a)] _)⟩
  | some t =>
    have hA : alphabetFns (s.engine.openFold a t) a = alphabetFns s.engine a := alphabetFns_congr a rfl rfl
    have htab : (lookup (alphabetSize s.engine a)).getD .table10 = t := congrArg (Option.getD · _) hl
    have hrun := runOn_of_execOn (T := T) (i := .sel a) rfl hi (execOn_sel_supported hl) bytes.length
    obtain ⟨u, hu, hbox, hinv, heng, htrace⟩ := run_puts hT (s := State.answer
      { s with inbox := present (pseudoPuts bytes) ++ rest } (s.engine.openFold a t)
      (respond .ok (tableAux t) (alphabetSize s.engine a))) (Engine.inv_openFold hl) rfl rfl
    simp only [State.answer_engine, State.answer_trace, Engine.openFold_alpha, Engine.openFold_tsel,
      Engine.openFold_acc, hA, List.append_assoc] at heng htrace
    exact ⟨u, hrun.trans hu, hbox, hinv, htab ▸ heng, htrace⟩

/-- A reading command answers what R128 gives for the result of the fold. -/
theorem execOn_read (x : ReadCommand) {e : Engine} {r : Except FoldError Nibble} (hs : s.Inv)
    (ha : e.phase = .active) (he : s.engine = e.foldResult r) :
    ∃ e', execOn T x.instr s = .next (s.answer e' (foldResponse (alphabetFns e e.alpha) e.alpha x r)) := by
  cases r with
  | ok k =>
    have hA : alphabetFns (e.setAcc k) e.alpha = alphabetFns e e.alpha := alphabetFns_congr _ rfl rfl
    have hread := execOn_read_open (T := T) x hs (he ▸ ha)
    rw [he] at hread
    simp only [Engine.foldResult, Engine.setAcc_alpha, Engine.setAcc_acc, hA] at hread
    exact hread
  | error err =>
    have hx : isFoldCommand x.instr = true := by cases x <;> rfl
    have hp : s.engine.phase = err.kind.phase := he ▸ rfl
    refine ⟨s.engine, (execOn_recorded hx hp).trans ?_⟩
    rw [foldResponse_error, State.answerSticky, he]
    rfl

/-- The commands of a call, from any state, end in the response that R128 gives for the fold. -/
theorem run_call (hT : T.Closed) {a : Alphabet} {x : ReadCommand}
    (hi : s.inbox = present (pseudoCall a bytes x) ++ rest) :
    ∃ t, (coreOn T).run (bytes.length + 2) s = .next t ∧ t.inbox = rest ∧
      t.rsp = some (foldResponse (alphabetFns s.engine a) a x (fold T (alphabetFns s.engine a) bytes)) ∧
      t.trace = s.trace ++ streamResponses (alphabetFns s.engine a) a bytes ++
        [foldResponse (alphabetFns s.engine a) a x (fold T (alphabetFns s.engine a) bytes)] := by
  have hsplit : s.inbox = present (.sel a :: pseudoPuts bytes) ++ (present [x.instr] ++ rest) := by
    simpa [pseudoCall, present] using hi
  obtain ⟨u, hu, hbox, hinv, heng, htrace⟩ := run_sel_puts hT hsplit
  obtain ⟨e', hread⟩ := execOn_read (T := T) (s := { u with inbox := rest }) x hinv rfl heng
  have hw : x.instr.wellFormed = true := by cases x <;> rfl
  have hA : ∀ t, alphabetFns (s.engine.openFold a t) a = alphabetFns s.engine a :=
    fun _ => alphabetFns_congr a rfl rfl
  simp only [Engine.openFold_alpha, hA] at hread
  refine ⟨_, (run_add hu 1).trans (runOn_of_execOn (is := []) hw hbox hread 0), rfl, rfl, ?_⟩
  rw [State.answer_trace, htrace]

end Runs

/-! ## The block over any two tables -/

theorem Tables.closed_of_damm {T : Tables} (h10 : IsDamm 10 (T .table10)) (h16 : IsDamm 16 (T .table16)) :
    T.Closed := by
  intro t
  cases t with
  | table10 => exact h10.latin.closed
  | table16 => exact h16.latin.closed

/-- Settles O59: of the tables' properties the block needs that their entries are states (R62); the rest is
`stepOn_goesOn`, `stepOn_inv` and the simulation of the fold by the commands of a call. -/
theorem anyDammTablesGiveABlock : Obligations.AnyDammTablesGiveABlock := by
  unfold Obligations.AnyDammTablesGiveABlock
  intro T h10 h16
  have hT := Tables.closed_of_damm h10 h16
  constructor
  · intro s hs
    obtain ⟨t, ht⟩ := stepOn_goesOn T hs
    exact ⟨t, ht, stepOn_inv hT hs ht⟩
  · intro s a bytes x rest hi
    obtain ⟨t, ht, hbox, hrsp, -⟩ := run_call hT hi
    exact ⟨t, ht, hbox, hrsp⟩

end Sys2Proof.Machine

/-! PROOF. Family 41_alphabet: the formulas of the built-in alphabets, the search of the user alphabet, the round-trip
law of all four, and the commands `USZ` and `UMP` (spec/41_alphabet.md). -/

namespace Sys2Proof.Machine

/-! ## The user alphabet -/

/-- R88: the priority search gives the least index below `USIZE` that holds the byte. -/
theorem fromSymbol_user_eq_some {e : Engine} {b : Byte} {i : Nibble} :
    fromSymbol e .user b = some i ↔ i.toNat < e.usize.toNat ∧ umRead e.um i = b ∧
      ∀ j : Nibble, j.toNat < i.toNat → umRead e.um j ≠ b := by
  refine userIndex_eq_some.trans (and_congr_right fun hi => and_congr_right fun _ => ?_)
  constructor
  · intro hleast j hj hb
    have := hleast j (by omega) hb
    omega
  · intro hnone j _ hb
    by_contra hlt
    exact hnone j (by omega) hb

/-- Settles O22: `fromSymbol_user_eq_some`, and a failed search has met no match. -/
theorem userAlphabetTakesLeastIndex : Obligations.UserAlphabetTakesLeastIndex := by
  unfold Obligations.UserAlphabetTakesLeastIndex
  exact fun _ => ⟨fun _ hi => toSymbol_inside hi, fun _ _ => fromSymbol_user_eq_some, fun _ => userIndex_eq_none⟩

/-! ## The round-trip law -/

/-- R82 as one equivalence: `from_symbol` gives exactly the index below the size whose symbol the byte is. -/
theorem roundTrip_iff {A : AlphabetFns} :
    RoundTrip A ↔ ∀ (b : Byte) (i : Nibble), A.fromSymbol b = some i ↔ i.toNat < A.size.toNat ∧ A.toSymbol i = b := by
  constructor
  · rintro ⟨hindex, hbyte⟩ b i
    refine ⟨hbyte b i, ?_⟩
    rintro ⟨hi, rfl⟩
    exact hindex i hi
  · intro h
    exact ⟨fun i hi => (h _ i).mpr ⟨hi, rfl⟩, fun b i => (h b i).mp⟩

/-- R91: a repeated entry is what keeps a match from being the least one. -/
theorem roundTrip_user_iff {e : Engine} : RoundTrip (alphabetFns e .user) ↔ UserAlphabetWellFormed e := by
  constructor
  · intro h i j hi hj hij
    have hi' : fromSymbol e .user (umRead e.um i) = some i := h.ofIndex i hi
    have hj' : fromSymbol e .user (umRead e.um j) = some j := h.ofIndex j hj
    rw [hij, hj'] at hi'
    exact (Option.some.inj hi').symm
  · intro hwf
    refine roundTrip_iff.mpr fun b i => ⟨userIndex_matches, ?_⟩
    rintro ⟨hi, hb⟩
    refine userIndex_eq_some.mpr ⟨hi, hb, fun j hj hbj => ?_⟩
    rw [hwf i j hi hj (hb.trans hbj.symm)]

/-- Settles O24: `roundTrip_user_iff`; a higher index of a repeated entry is not the least match. -/
theorem userRoundTripIffWellFormed : Obligations.UserRoundTripIffWellFormed := by
  unfold Obligations.UserRoundTripIffWellFormed
  refine fun e => ⟨roundTrip_user_iff, fun i j hij _ heq hsome => ?_⟩
  obtain ⟨-, -, hleast⟩ := fromSymbol_user_eq_some.mp hsome
  exact hleast i hij heq

/-! ## The built-in alphabets -/

theorem hexByte_of_digit (base : Byte) {i : Nibble} (h : i.toNat ≤ 9) : hexByte base i = 0x30#8 + zext8 i :=
  if_pos h

/-- R86 and R87 write the letter of index `i` as `i` plus the byte ten below the first letter. -/
theorem hexByte_of_letter (base : Byte) {i : Nibble} (h : 10 ≤ i.toNat) : hexByte base i = base - 10#8 + zext8 i := by
  have hi : ¬ i ≤ 9#4 := by bv_omega
  rw [hexByte, if_neg hi]
  bv_omega

/-- The two ranges of R86 and R87, `base` being the byte of the letter of index 10. -/
theorem hexIndex_eq (base b : Byte) : (digitIndex b).or (letterIndex base b) =
    if 0x30#8 ≤ b ∧ b ≤ 0x39#8 then some ((b - 0x30#8).setWidth 4)
    else if base ≤ b ∧ b ≤ base + 5#8 then some ((b - (base - 10#8)).setWidth 4) else none := by
  have hsub : b - base + 10#8 = b - (base - 10#8) := by bv_omega
  rw [digitIndex, letterIndex, hsub]
  split <;> rfl

/-- Settles O21: the formulas of the definitions at the two letter bases. -/
theorem builtinAlphabetFormulas : Obligations.BuiltinAlphabetFormulas := by
  unfold Obligations.BuiltinAlphabetFormulas
  refine fun e => ⟨fun i hi => ⟨?_, ?_, ?_⟩, fun i hi => ⟨?_, ?_⟩, fun _ => rfl, hexIndex_eq 0x41#8, hexIndex_eq 0x61#8⟩
  · exact toSymbol_inside (a := .digit) (Nat.lt_succ_of_le hi)
  · exact (toSymbol_inside (a := .upperHex) i.isLt).trans (congrArg some (hexByte_of_digit _ hi))
  · exact (toSymbol_inside (a := .lowerHex) i.isLt).trans (congrArg some (hexByte_of_digit _ hi))
  · exact (toSymbol_inside (a := .upperHex) i.isLt).trans (congrArg some (hexByte_of_letter _ hi))
  · exact (toSymbol_inside (a := .lowerHex) i.isLt).trans (congrArg some (hexByte_of_letter _ hi))

/-- The decimal digits (R85): the search for the index undoes the formula. -/
theorem digitIndex_eq_some {b : Byte} {i : Nibble} :
    digitIndex b = some i ↔ i.toNat < 10 ∧ 0x30#8 + zext8 i = b := by
  have hz := zext8_toNat i
  rw [digitIndex, Option.ite_none_right_eq_some, Option.some_inj]
  constructor
  · rintro ⟨⟨hlo, hhi⟩, rfl⟩
    bv_omega
  · rintro ⟨hi, rfl⟩
    bv_omega

theorem digitIndex_of_above {b : Byte} (h : 0x39#8 < b) : digitIndex b = none :=
  if_neg fun hrange => BitVec.not_le.mpr h hrange.2

/-- The letters (R86, R87), for a base whose six letters do not wrap around. -/
theorem letterIndex_eq_some {base b : Byte} {i : Nibble} (hbase : base ≤ 0xFA#8) :
    letterIndex base b = some i ↔ 10 ≤ i.toNat ∧ base - 10#8 + zext8 i = b := by
  have hz := zext8_toNat i
  rw [letterIndex, Option.ite_none_right_eq_some, Option.some_inj]
  constructor
  · rintro ⟨⟨hlo, hhi⟩, rfl⟩
    bv_omega
  · rintro ⟨hi, rfl⟩
    bv_omega

/-- A hexadecimal alphabet whose letters lie above the digits: index and byte determine each other. -/
theorem hexIndex_eq_some {base b : Byte} {i : Nibble} (hlo : 0x39#8 < base) (hhi : base ≤ 0xFA#8) :
    (digitIndex b).or (letterIndex base b) = some i ↔ hexByte base i = b := by
  rw [Option.or_eq_some_iff, digitIndex_eq_some, letterIndex_eq_some hhi]
  obtain hi | hi := Nat.lt_or_ge i.toNat 10
  · rw [hexByte_of_digit base (by omega)]
    constructor
    · rintro (⟨-, hb⟩ | ⟨-, hi', -⟩)
      · exact hb
      · omega
    · exact fun hb => .inl ⟨hi, hb⟩
  · rw [hexByte_of_letter base hi]
    constructor
    · rintro (⟨hi', -⟩ | ⟨-, -, hb⟩)
      · omega
      · exact hb
    · intro hb
      have hz := zext8_toNat i
      exact .inr ⟨digitIndex_of_above (by bv_omega), hi, hb⟩

/-- Settles O23: in each alphabet the index of a byte is the one whose formula gives the byte. -/
theorem builtinAlphabetsRoundTrip : Obligations.BuiltinAlphabetsRoundTrip := by
  unfold Obligations.BuiltinAlphabetsRoundTrip
  intro e a ha
  refine roundTrip_iff.mpr fun b i => ?_
  cases a with
  | digit => exact digitIndex_eq_some
  | upperHex => exact (hexIndex_eq_some (by decide) (by decide)).trans (and_iff_right i.isLt).symm
  | lowerHex => exact (hexIndex_eq_some (by decide) (by decide)).trans (and_iff_right i.isLt).symm
  | user => exact absurd rfl ha

/-! ## The commands of the user alphabet -/

theorem decode_usz_mustBeZero {w : Word} (ho : opField w = 0x8#4) (hm : w.extractLsb' 8 4 ≠ 0) :
    decode w = .error .mustBeZero :=
  (decode_usz ho).trans (checkMbz_of_ne _ hm)

/-- Settles O25: `USZ` is the write of `USIZE` followed by `close_fold()`, in any phase. -/
theorem uszStoresSizeAndClosesFold : Obligations.UszStoresSizeAndClosesFold := by
  unfold Obligations.UszStoresSizeAndClosesFold
  exact ⟨fun _ _ => rfl, fun _ => decode_usz_mustBeZero⟩

/-- Settles O26: the map after `UMP` is that after the store, which the memory laws describe. -/
theorem umpStoresEntryAndClosesFold : Obligations.UmpStoresEntryAndClosesFold := by
  unfold Obligations.UmpStoresEntryAndClosesFold
  exact ⟨fun i b s => ⟨umWrite s.engine.um i b, rfl, fun hm => umRead_umWrite_self hm i b,
    fun _ ha => Memory.read_write_ne b _ ha⟩, fun _ ho => ⟨_, decode_ump ho⟩⟩

end Sys2Proof.Machine

/-! PROOF. Family 42_fold_engine: the pure fold and the error detection it promises, the seven commands of the fold
engine, the table of phases, the invariants, and that a call's commands compute the pure functions
(spec/42_fold_engine.md). -/

namespace Sys2Proof.Machine

/-! ## The invariants -/

/-- Settles O45: `Engine.inv_reset`. -/
theorem resetMeetsInvariants : Obligations.ResetMeetsInvariants := by
  unfold Obligations.ResetMeetsInvariants
  exact Engine.inv_reset

/-- Settles O46: `step_inv`, by cases of the effects of a command (`Effect.inv`). -/
theorem stepKeepsInvariants : Obligations.StepKeepsInvariants := by
  unfold Obligations.StepKeepsInvariants
  exact fun _ _ => step_inv

/-! ## The loop of `fold` by its results -/

section Loop
variable {T : Table} {A : AlphabetFns} {acc k : Nibble} {b : Byte} {s u : List Byte}

theorem foldFrom_append_eq_ok :
    foldFrom T A acc (s ++ u) = .ok k ↔ ∃ m, foldFrom T A acc s = .ok m ∧ foldFrom T A m u = .ok k := by
  rw [foldFrom_append]
  cases foldFrom T A acc s with
  | error err => simp
  | ok m => simp

theorem foldFrom_cons_eq_ok :
    foldFrom T A acc (b :: s) = .ok k ↔ ∃ x, A.fromSymbol b = some x ∧ foldFrom T A (T acc x) s = .ok k := by
  rw [foldFrom]
  cases A.fromSymbol b with
  | none => simp
  | some x => simp

/-- The first byte outside the alphabet is the one reported, with the alphabet (R100). -/
theorem foldFrom_eq_invalidSymbol {B : AlphabetFns} :
    foldFrom T A acc s = .error (.invalidSymbol b B) ↔ B = A ∧ s.find? (fun c => (A.fromSymbol c).isNone) = some b := by
  induction s generalizing acc with
  | nil => simp [foldFrom]
  | cons d rest ih =>
    rw [foldFrom]
    cases hd : A.fromSymbol d with
    | none => simp [hd, eq_comm, and_comm]
    | some x => simpa [hd] using ih

/-- Bytes that all have indices take the loop along the table's entries (R100). -/
theorem foldFrom_of_indices {xs : List Nibble} (h : s.map A.fromSymbol = xs.map some) :
    foldFrom T A acc s = .ok (xs.foldl T acc) := by
  induction s generalizing acc xs with
  | nil =>
    obtain rfl : xs = [] := by simpa using h.symm
    rfl
  | cons b rest ih =>
    cases xs with
    | nil => cases h
    | cons x xs =>
      obtain ⟨hx, hrest⟩ := List.cons.inj h
      exact foldFrom_cons_eq_ok.mpr ⟨x, hx, ih hrest⟩

end Loop

/-! ## The operations by the result of `fold` -/

section Operations
variable {tables : Tables} {A : AlphabetFns} {s : List Byte}

theorem fold_of_lookup {t : TableId} (h : lookup A.size = some t) : fold tables A s = foldFrom (tables t) A 0 s := by
  rw [fold, h]

theorem fold_of_lookup_none (h : lookup A.size = none) :
    fold tables A s = .error (.unsupportedAlphabetSize A.size) := by
  rw [fold, h]

/-- A fold that ends without error had a table. -/
theorem lookup_of_fold {k : Nibble} (h : fold tables A s = .ok k) : ∃ t, lookup A.size = some t := by
  rw [← Option.isSome_iff_exists, Option.isSome_iff_ne_none]
  intro hl
  cases (fold_of_lookup_none hl).symm.trans h

theorem checkSymbol_of_fold {k : Nibble} (h : fold tables A s = .ok k) :
    checkSymbol tables A s = .ok (A.toSymbol k) := by
  rw [checkSymbol, h]

theorem isValid_of_fold {k : Nibble} (h : fold tables A s = .ok k) : isValid tables A s = .ok (decide (k = 0)) := by
  rw [isValid, h]; rfl

theorem appendCheckSymbol_of_fold {k : Nibble} (h : fold tables A s = .ok k) :
    appendCheckSymbol tables A s = .ok (s ++ [A.toSymbol k]) := by
  rw [appendCheckSymbol, checkSymbol_of_fold h]

theorem operations_of_fold_error {e : FoldError} (h : fold tables A s = .error e) :
    checkSymbol tables A s = .error e ∧ isValid tables A s = .error e ∧ appendCheckSymbol tables A s = .error e := by
  simp only [checkSymbol, isValid, appendCheckSymbol, h, and_self]

/-- A check symbol is the symbol of the fold's final state (R101). -/
theorem checkSymbol_eq_ok {c : Byte} :
    checkSymbol tables A s = .ok c ↔ ∃ k, fold tables A s = .ok k ∧ A.toSymbol k = c := by
  rw [checkSymbol]
  cases fold tables A s with
  | error e => simp
  | ok k => simp

theorem isValid_eq_ok {v : Bool} :
    isValid tables A s = .ok v ↔ ∃ k, fold tables A s = .ok k ∧ validFlag k = v := by
  rw [isValid]
  cases fold tables A s with
  | error e => simp
  | ok k => simp

/-- A sequence is invalid when its fold ends in another state than 0 (R102). -/
theorem isValid_eq_false {k : Nibble} (h : fold tables A s = .ok k) (hk : k ≠ 0) :
    isValid tables A s = .ok false := by
  rw [isValid_of_fold h, decide_eq_false hk]

theorem isValid_eq_true (h : fold tables A s = .ok 0) : isValid tables A s = .ok true := isValid_of_fold h

end Operations

theorem RoundTrip.index_lt {A : AlphabetFns} (hA : RoundTrip A) (b : Byte) (x : Nibble) (h : A.fromSymbol b = some x) :
    x.toNat < A.size.toNat :=
  (hA.ofByte b x h).1

/-- The index 0, from which `fold` starts, is one of every registered size. -/
theorem zero_lt_size {n : Byte} {t : TableId} (hl : lookup n = some t) : (0 : Nibble).toNat < n.toNat := by
  rw [← tableSize_of_lookup hl]
  cases t <;> decide

/-- The final state of a fold lies below the size (R100). -/
theorem fold_lt {tables : Tables} {A : AlphabetFns} {t : TableId} (hl : lookup A.size = some t)
    (hT : IsLatin A.size.toNat (tables t)) (hA : RoundTrip A) {s : List Byte} {k : Nibble}
    (h : fold tables A s = .ok k) : k.toNat < A.size.toNat := by
  rw [fold_of_lookup hl] at h
  exact foldFrom_lt hT hA.index_lt (zero_lt_size hl) h

/-- Settles O56: the operations by the result of `fold`, and the loop's errors, results and range. -/
theorem operationsFollowFold : Obligations.OperationsFollowFold := by
  unfold Obligations.OperationsFollowFold
  intro tables A s
  refine ⟨fun e => operations_of_fold_error,
    fun k hk => ⟨checkSymbol_of_fold hk, isValid_of_fold hk, appendCheckSymbol_of_fold hk⟩,
    fold_of_lookup_none, fun t b B hl => ?_, fun t xs hl hxs => ?_, fun t k hl hT hA hk => ?_⟩
  · rw [fold_of_lookup hl, foldFrom_eq_invalidSymbol, List.find?_eq_some_iff_append]
    simp [and_left_comm]
  · rw [fold_of_lookup hl, foldFrom_of_indices hxs]
  · exact fold_lt hl hT hA hk

/-- Settles O51: R63 at row `c`, where the only 0 stands on the diagonal. -/
theorem checkSymbolExistsUniquely : Obligations.CheckSymbolExistsUniquely := by
  unfold Obligations.CheckSymbolExistsUniquely
  intro n T c hT hc
  exact ⟨c, ⟨hc, (hT.zeroDiagonal c c hc hc).mpr rfl, fun y hy h => ((hT.zeroDiagonal c y hc hy).mp h).symm⟩, rfl⟩

/-- Settles O52: the loop over no symbols ends where it starts, in the state 0. -/
theorem emptyInputIsValid : Obligations.EmptyInputIsValid := by
  unfold Obligations.EmptyInputIsValid
  refine fun tables A => ⟨fun t hl => ?_, fold_of_lookup_none, fun e a ha => ?_⟩
  · have hfold : fold tables A [] = .ok 0 := fold_of_lookup hl
    exact ⟨hfold, checkSymbol_of_fold hfold, isValid_eq_true hfold⟩
  · cases a with
    | digit | upperHex | lowerHex => rfl
    | user => exact absurd rfl ha

/-! ## Error detection of the pure functions -/

section Detection
variable {tables : Tables} {A : AlphabetFns} {t : TableId} {T : Table}

/-- Different symbols of the alphabet have different indices (R82). -/
theorem RoundTrip.fromSymbol_inj (hA : RoundTrip A) {b c : Byte} {x : Nibble} (hb : A.fromSymbol b = some x)
    (hc : A.fromSymbol c = some x) : b = c :=
  (hA.ofByte b x hb).2.symm.trans (hA.ofByte c x hc).2

/-- Different indices have different symbols (R82). -/
theorem RoundTrip.toSymbol_inj (hA : RoundTrip A) {x y : Nibble} (hx : x.toNat < A.size.toNat)
    (hy : y.toNat < A.size.toNat) (h : A.toSymbol x = A.toSymbol y) : x = y :=
  Option.some.inj ((hA.ofIndex x hx).symm.trans ((congrArg A.fromSymbol h).trans (hA.ofIndex y hy)))

/-- The symbols of indices have these indices (R82). -/
theorem RoundTrip.map_fromSymbol (hA : RoundTrip A) {xs : List Nibble} (h : ∀ x ∈ xs, x.toNat < A.size.toNat) :
    (xs.map A.toSymbol).map A.fromSymbol = xs.map some := by
  rw [List.map_map]
  exact List.map_congr_left fun x hx => hA.ofIndex x (h x hx)

/-- Once two loops are in different states, the symbols that follow keep them apart (R62). -/
theorem foldFrom_ne {n : Nat} (hT : IsLatin n T) (hA : ∀ b x, A.fromSymbol b = some x → x.toNat < n)
    {acc acc' k : Nibble} {s : List Byte} (hacc : acc.toNat < n) (hacc' : acc'.toNat < n) (hne : acc' ≠ acc)
    (h : foldFrom T A acc s = .ok k) : ∃ k', foldFrom T A acc' s = .ok k' ∧ k' ≠ k := by
  obtain ⟨k', hk'⟩ := (foldFrom_isOk T A acc' s).mpr ((foldFrom_isOk T A acc s).mp ⟨k, h⟩)
  refine ⟨k', hk', ?_⟩
  rintro rfl
  exact hne (foldFrom_inj hT hA hacc' hacc hk' h)

variable (hl : lookup A.size = some t) (hT : IsLatin A.size.toNat (tables t)) (hA : RoundTrip A)
include hl hA

/-- The symbols of indices take the fold along the table's entries. -/
theorem fold_symbols {xs : List Nibble} (h : ∀ x ∈ xs, x.toNat < A.size.toNat) :
    fold tables A (xs.map A.toSymbol) = .ok (xs.foldl (tables t) 0) :=
  (fold_of_lookup hl).trans (foldFrom_of_indices (hA.map_fromSymbol h))

include hT

/-- A sequence with its check symbol folds to 0 (R108): the check symbol's index is the final state, and the diagonal
entry of that state is 0. -/
theorem fold_checked (hzero : ZeroDiagonal A.size.toNat (tables t)) {s : List Byte} {c : Byte}
    (hc : checkSymbol tables A s = .ok c) : fold tables A (s ++ [c]) = .ok 0 := by
  obtain ⟨k, hk, rfl⟩ := checkSymbol_eq_ok.mp hc
  have hkn := fold_lt hl hT hA hk
  rw [fold_of_lookup hl] at hk ⊢
  refine foldFrom_append_eq_ok.mpr ⟨k, hk, foldFrom_cons_eq_ok.mpr ⟨k, hA.ofIndex k hkn, ?_⟩⟩
  rw [foldFrom, (hzero k k hkn hkn).mpr rfl]

/-- One symbol replaced by another in a sequence that folds to 0 (R105). -/
theorem isValid_substitution {pre post : List Byte} {b c : Byte} (h : fold tables A (pre ++ b :: post) = .ok 0)
    (hne : c ≠ b) (hc : (A.fromSymbol c).isSome = true) : isValid tables A (pre ++ c :: post) = .ok false := by
  rw [fold_of_lookup hl] at h
  obtain ⟨m, hm, hrest⟩ := foldFrom_append_eq_ok.mp h
  obtain ⟨x, hx, hpost⟩ := foldFrom_cons_eq_ok.mp hrest
  obtain ⟨y, hy⟩ := Option.isSome_iff_exists.mp hc
  have hmn := foldFrom_lt hT hA.index_lt (zero_lt_size hl) hm
  have hxn := hA.index_lt b x hx
  have hyn := hA.index_lt c y hy
  have hstate : tables t m y ≠ tables t m x := fun heq => by
    obtain rfl := hT.row_inj hmn hyn hxn heq
    exact hne (hA.fromSymbol_inj hy hx)
  obtain ⟨k, hk, hk0⟩ := foldFrom_ne hT hA.index_lt (hT.closed _ _ hmn hxn) (hT.closed _ _ hmn hyn) hstate hpost
  refine isValid_eq_false ?_ hk0
  rw [fold_of_lookup hl]
  exact foldFrom_append_eq_ok.mpr ⟨m, hm, foldFrom_cons_eq_ok.mpr ⟨y, hy, hk⟩⟩

/-- Two different neighbours swapped in a sequence that folds to 0 (R106). -/
theorem isValid_transposition (hanti : WeaklyTotallyAntiSymmetric A.size.toNat (tables t)) {pre post : List Byte}
    {b c : Byte} (h : fold tables A (pre ++ b :: c :: post) = .ok 0) (hne : b ≠ c) :
    isValid tables A (pre ++ c :: b :: post) = .ok false := by
  rw [fold_of_lookup hl] at h
  obtain ⟨m, hm, hrest⟩ := foldFrom_append_eq_ok.mp h
  obtain ⟨x, hx, hrest⟩ := foldFrom_cons_eq_ok.mp hrest
  obtain ⟨y, hy, hpost⟩ := foldFrom_cons_eq_ok.mp hrest
  have hmn := foldFrom_lt hT hA.index_lt (zero_lt_size hl) hm
  have hxn := hA.index_lt b x hx
  have hyn := hA.index_lt c y hy
  have hyx : y ≠ x := by
    rintro rfl
    exact hne (hA.fromSymbol_inj hx hy)
  obtain ⟨k, hk, hk0⟩ := foldFrom_ne hT hA.index_lt (hT.closed _ _ (hT.closed _ _ hmn hxn) hyn)
    (hT.closed _ _ (hT.closed _ _ hmn hyn) hxn) (hanti m y x hmn hyn hxn hyx) hpost
  refine isValid_eq_false ?_ hk0
  rw [fold_of_lookup hl]
  exact foldFrom_append_eq_ok.mpr ⟨m, hm, foldFrom_cons_eq_ok.mpr ⟨y, hy, foldFrom_cons_eq_ok.mpr ⟨x, hx, hk⟩⟩⟩

/-- R106's converse: if `x` and `y` could be swapped from the state `m`, then so they could in the sequence that leads
from 0 to `m`, over `x` and `y`, and to its check symbol. -/
theorem antiSymmetric_of_detection (hzero : ZeroDiagonal A.size.toNat (tables t))
    (hdetect : ∀ (s pre post : List Byte) (c0 x y : Byte), checkSymbol tables A s = .ok c0 →
      s ++ [c0] = pre ++ x :: y :: post → x ≠ y → isValid tables A (pre ++ y :: x :: post) = .ok false) :
    WeaklyTotallyAntiSymmetric A.size.toNat (tables t) := by
  intro m x y hm hx hy hne heq
  obtain ⟨d, hd, rfl, -⟩ := hT.row 0 m (zero_lt_size hl) hm
  have hk := hT.closed _ _ (hT.closed _ _ hm hx) hy
  have hcheck := checkSymbol_of_fold (tables := tables) (fold_symbols hl hA (xs := [d, x, y]) (by simp [hd, hx, hy]))
  have hinvalid := hdetect _ [A.toSymbol d] _ _ _ _ hcheck rfl fun h => hne (hA.toSymbol_inj hx hy h)
  have hvalid := isValid_of_fold (tables := tables) (fold_symbols hl hA
    (xs := [d, y, x, tables t (tables t (tables t 0 d) x) y]) (by simpa [hd, hx, hy] using hk))
  have hlast := (hzero _ _ hk hk).mpr rfl
  simp only [List.foldl, ← heq, hlast] at hvalid
  cases hinvalid.symm.trans hvalid

end Detection

/-- Settles O53: `fold_checked`; the check symbols of the rule's two sequences are computed. -/
theorem selfGeneratedCheckSymbolValidates : Obligations.SelfGeneratedCheckSymbolValidates := by
  unfold Obligations.SelfGeneratedCheckSymbolValidates
  have hgeneral : ∀ (tables : Tables) (A : AlphabetFns) (t : TableId) (s : List Byte) (c : Byte),
      lookup A.size = some t → IsDamm A.size.toNat (tables t) → RoundTrip A →
      checkSymbol tables A s = .ok c → isValid tables A (s ++ [c]) = .ok true :=
    fun _ _ _ _ _ hl hT hA hc => isValid_eq_true (fold_checked hl hT.latin hA hT.zeroDiagonal hc)
  refine ⟨hgeneral, fun e => ?_⟩
  have hdigit : checkSymbol hardwareTables (alphabetFns e .digit) [0x35#8, 0x37#8, 0x32#8] = .ok 0x34#8 := rfl
  have hhex : checkSymbol hardwareTables (alphabetFns e .upperHex) [0x31#8, 0x41#8, 0x32#8, 0x42#8] = .ok 0x31#8 := rfl
  exact ⟨hdigit,
    hgeneral hardwareTables (alphabetFns e .digit) .table10 _ _ rfl table10_damm
      (builtinAlphabetsRoundTrip e .digit nofun) hdigit,
    hhex,
    hgeneral hardwareTables (alphabetFns e .upperHex) .table16 _ _ rfl table16_damm
      (builtinAlphabetsRoundTrip e .upperHex nofun) hhex⟩

/-- Settles O54: the checked sequence folds to 0, and a substitution moves it off 0. -/
theorem singleSubstitutionIsDetected : Obligations.SingleSubstitutionIsDetected := by
  unfold Obligations.SingleSubstitutionIsDetected
  intro tables A t s pre post c0 b c hl hT hA hc0 hsplit hne hc
  exact isValid_substitution hl hT.latin hA (hsplit ▸ fold_checked hl hT.latin hA hT.zeroDiagonal hc0) hne hc

/-- Settles O55: `isValid_transposition` and `antiSymmetric_of_detection`. -/
theorem adjacentTranspositionIsDetected : Obligations.AdjacentTranspositionIsDetected := by
  unfold Obligations.AdjacentTranspositionIsDetected
  intro tables A t hl hT hzero hA
  refine ⟨fun hanti s pre post c0 x y hc0 hsplit hne => ?_, antiSymmetric_of_detection hl hT hA hzero⟩
  exact isValid_transposition hl hT hA hanti (hsplit ▸ fold_checked hl hT hA hzero hc0) hne

/-! ## The commands of the fold engine -/

section Commands
variable {s : State}

/-- While no fold is open every fold command answers `E_NO_FOLD` (R112, R144). -/
theorem execOn_noFold {T : Tables} {i : Instr} (hi : isFoldCommand i = true) (hp : s.engine.phase = .idle) :
    execOn T i s = .next s.answerNoFold := by
  have hgate : ∀ body, foldGate s body = .next s.answerNoFold := fun body => by rw [foldGate, hp]
  cases i with
  | put | fin | chk | val | app => exact hgate _
  | sel | sts | usz | ump | lkp | trd => cases hi

theorem answersWhileClosed {i : Instr} (hi : isFoldCommand i = true) : AnswersWhileClosed i := by
  intro s
  rw [exec_eq_execOn]
  exact ⟨execOn_noFold hi, execOn_recorded (k := .invalidSymbol) hi, execOn_recorded (k := .unsupportedSize) hi⟩

theorem exec_fin_active (ha : s.engine.phase = .active) :
    exec .fin s = .next (s.answer s.engine (respond .ok 0 (zext8 s.engine.acc))) :=
  foldGate_active _ ha

theorem exec_val_active (ha : s.engine.phase = .active) :
    exec .val s = .next (s.answer s.engine (respond .ok 0 (validByte s.engine.acc))) :=
  foldGate_active _ ha

theorem exec_fin_of_acc_zero (ha : s.engine.phase = .active) (h0 : s.engine.acc = 0) :
    exec .fin s = .next (s.answer s.engine 0x0000#16) := by
  have hword : respond .ok 0 (zext8 0) = 0x0000#16 := by decide
  rw [exec_fin_active ha, h0, hword]

theorem exec_val_of_acc_zero (ha : s.engine.phase = .active) (h0 : s.engine.acc = 0) :
    exec .val s = .next (s.answer s.engine 0x0001#16) := by
  rw [exec_val_active ha, h0]; rfl

theorem exec_chk_active (hs : s.Inv) (ha : s.engine.phase = .active) :
    exec .chk s = .next (s.answer s.engine (respond .ok 0 (symbolByte s.engine s.engine.alpha s.engine.acc))) := by
  refine (foldGate_active _ ha).trans ?_
  rw [toSymbol_inside (hs.openFold ha).2]

/-- `APP` in an open fold, over any tables (R118). -/
theorem execOn_app_active {T : Tables} (hs : s.Inv) (ha : s.engine.phase = .active) :
    execOn T .app s = .next (s.answer (s.engine.setAcc (T s.engine.tsel s.engine.acc s.engine.acc))
      (respond .ok 0 (symbolByte s.engine s.engine.alpha s.engine.acc))) := by
  refine (foldGate_active _ ha).trans ?_
  rw [toSymbol_inside (hs.openFold ha).2, tabRead_inside (hs.acc_lt ha) (hs.acc_lt ha)]

/-- The entry that `APP` reads from the hardware's tables stands on the diagonal. -/
theorem exec_app_active (hs : s.Inv) (ha : s.engine.phase = .active) :
    exec .app s = .next (s.answer (s.engine.setAcc 0)
      (respond .ok 0 (symbolByte s.engine s.engine.alpha s.engine.acc))) := by
  rw [exec_eq_execOn, execOn_app_active hs ha, hardwareTables, tableEntry_diag (hs.acc_lt ha)]

end Commands

/-- The words of the commands without operand: any other word of the opcode has a bit set that must be zero (R41). -/
theorem operand_ne_zero {w : Word} {op : BitVec 4} (ho : opField w = op) (hw : w ≠ (op ++ 0#12 : Word)) :
    w.extractLsb' 0 12 ≠ 0 :=
  fun hm => hw (eq_word_op_12 ho hm).symm

/-- Settles O29: the closed gate answers whatever the command's own rule is. -/
theorem phaseGateAnswersWithoutEffect : Obligations.PhaseGateAnswersWithoutEffect := by
  unfold Obligations.PhaseGateAnswersWithoutEffect
  rintro i (⟨b, rfl⟩ | rfl | rfl | rfl | rfl) <;> exact answersWhileClosed rfl

/-- Only the user alphabet can be without a table (R81, R60). -/
theorem lookup_alphabetSize_eq_none {e : Engine} {a : Alphabet} :
    lookup (alphabetSize e a) = none ↔ a = .user ∧ e.usize ≠ 10#8 ∧ e.usize ≠ 16#8 := by
  constructor
  · intro h
    obtain rfl := alphabet_eq_user_of_lookup_eq_none h
    exact ⟨rfl, lookup_eq_none.mp h⟩
  · rintro ⟨rfl, h⟩
    exact lookup_eq_none.mpr h

/-- Settles O28: `SEL` by cases of the lookup. -/
theorem selOpensFoldOrRecordsSize : Obligations.SelOpensFoldOrRecordsSize := by
  unfold Obligations.SelOpensFoldOrRecordsSize
  simp only [exec_eq_execOn]
  exact ⟨fun _ _ _ => execOn_sel_supported, fun _ _ => execOn_sel_unsupported,
    fun _ _ => lookup_alphabetSize_eq_none, fun _ ho hm => (decode_sel ho).trans (checkMbz_of_ne _ hm)⟩

/-- Settles O30: `PUT` by cases of `from_symbol`, and the closed gate. -/
theorem putStepsAccumulatorOrAborts : Obligations.PutStepsAccumulatorOrAborts := by
  unfold Obligations.PutStepsAccumulatorOrAborts
  simp only [exec_eq_execOn]
  exact ⟨fun _ _ _ => execOn_put_accepted, fun _ _ => execOn_put_rejected,
    fun _ => answersWhileClosed rfl, fun _ ho hm => (decode_put ho).trans (checkMbz_of_ne _ hm)⟩

/-- Settles O31: `exec_fin_active` and the closed gate. -/
theorem finReadsAccumulator : Obligations.FinReadsAccumulator := by
  unfold Obligations.FinReadsAccumulator
  exact ⟨fun _ => exec_fin_active, answersWhileClosed rfl,
    fun _ ho hw => (decode_fin ho).trans (checkMbz_of_ne _ (operand_ne_zero ho hw))⟩

/-- Settles O32: under R22 the accumulator has a symbol; and the closed gate. -/
theorem chkReadsCheckSymbol : Obligations.ChkReadsCheckSymbol := by
  unfold Obligations.ChkReadsCheckSymbol
  exact ⟨fun _ => exec_chk_active, answersWhileClosed rfl,
    fun _ ho hw => (decode_chk ho).trans (checkMbz_of_ne _ (operand_ne_zero ho hw))⟩

/-- Settles O33: the validity byte by cases of the accumulator, and the closed gate. -/
theorem valReadsValidity : Obligations.ValReadsValidity := by
  unfold Obligations.ValReadsValidity
  refine ⟨fun s ha h0 => ?_, fun s ha h0 => ?_, answersWhileClosed rfl,
    fun _ ho hw => (decode_val ho).trans (checkMbz_of_ne _ (operand_ne_zero ho hw))⟩
  · exact exec_val_of_acc_zero ha h0
  · rw [exec_val_active ha, validByte, validFlag, beq_false_of_ne h0]; rfl

/-- With the round-trip law the alphabet takes the check symbol back to the accumulator (R118). -/
theorem exec_put_checkSymbol {s : State} (hs : s.Inv) (ha : s.engine.phase = .active)
    (hA : RoundTrip (alphabetFns s.engine s.engine.alpha)) :
    exec (.put (symbolByte s.engine s.engine.alpha s.engine.acc)) s =
      .next (s.answer (s.engine.setAcc 0) (respond .ok 0 0x00#8)) := by
  have hx : fromSymbol s.engine s.engine.alpha (symbolByte s.engine s.engine.alpha s.engine.acc) =
    some s.engine.acc := hA.ofIndex _ (hs.openFold ha).2
  rw [exec_eq_execOn, execOn_put_accepted hs ha hx, hardwareTables, tableEntry_diag (hs.acc_lt ha)]

/-- Settles O34: `APP` leaves the state 0 in a fold that stays open, on which the reading commands are known. -/
theorem appReturnsCheckSymbolAndFoldsIt : Obligations.AppReturnsCheckSymbolAndFoldsIt := by
  unfold Obligations.AppReturnsCheckSymbolAndFoldsIt
  refine ⟨fun s hs ha => ⟨exec_app_active hs ha, tableEntry_diag (hs.acc_lt ha)⟩, answersWhileClosed rfl,
    fun _ ho hw => (decode_app ho).trans (checkMbz_of_ne _ (operand_ne_zero ho hw)), ?_, ?_⟩
  · intro s t hs ha h
    cases (exec_app_active hs ha).symm.trans h
    have ht : (s.engine.setAcc 0).Inv := hs.setAcc ha (by cases s.engine.tsel <;> decide)
    exact ⟨exec_val_of_acc_zero ha rfl, exec_fin_of_acc_zero ha rfl, exec_chk_active ht ha, exec_app_active ht ha⟩
  · intro s t u hs ha hA ht hu
    cases (exec_app_active hs ha).symm.trans ht
    cases (exec_put_checkSymbol hs ha hA).symm.trans hu
    rfl

/-- The status read's `aux`, shifted to its place in the response (R21). -/
theorem stsAux_shifted (p : Phase) (a : Alphabet) : (stsAux p a).setWidth 16 <<< 8 =
    (p.code.setWidth 16 <<< 10 ||| a.code.setWidth 16 <<< 8 : Word) := by
  cases p <;> cases a <;> rfl

/-- A response with status 0 (R46). -/
theorem respond_ok_eq_or (m : Nibble) (d : Byte) :
    respond .ok m d = (m.setWidth 16 <<< 8) ||| d.setWidth 16 :=
  (word_op_4_8_eq_or 0#4 m d).trans (congrArg (· ||| d.setWidth 16) BitVec.zero_or)

/-- Settles O35: the response's fields shifted to their places. -/
theorem stsReadsStatus : Obligations.StsReadsStatus := by
  unfold Obligations.StsReadsStatus
  refine ⟨fun s => ?_, fun _ ho hw => (decode_sts ho).trans (checkMbz_of_ne _ (operand_ne_zero ho hw))⟩
  rw [← stsAux_shifted, ← respond_ok_eq_or]
  rfl

/-! ## The table of phases -/

/-- The phase after the command `i` (R110). -/
def Engine.phaseAfter (e : Engine) : Instr → Phase
  | .sel a => if (lookup (alphabetSize e a)).isSome then .active else .faultSize
  | .put b => if e.phase = .active ∧ fromSymbol e e.alpha b = none then .faultSymbol else e.phase
  | .usz _ => .idle
  | .ump _ _ => .idle
  | _ => e.phase

theorem Effect.phase_eq {T : Tables} {i : Instr} {e e' : Engine} (h : Effect T i e e') : e'.phase = e.phaseAfter i := by
  cases h with
  | openFold a _ t hl => simp [Engine.phaseAfter, hl]
  | sizeError a _ hl => simp [Engine.phaseAfter, hl, ErrorKind.phase]
  | symbolError b _ ha hx => simp [Engine.phaseAfter, ha, hx, ErrorKind.phase]
  | symbol b _ x v ha hx _ => simp [Engine.phaseAfter, hx]
  | append _ v ha _ => rfl
  | size n => rfl
  | entry x b => rfl
  | keep _ _ hsel husz hump hact =>
    cases i with
    | sel a => exact absurd rfl (hsel a)
    | usz n => exact absurd rfl (husz n)
    | ump x b => exact absurd rfl (hump x b)
    | put b => exact (if_neg fun h => (hact h.1).1 b rfl).symm
    | fin | chk | val | app | sts | lkp | trd => rfl

/-- Settles O36: a clock is a reset, a command with its phase, or leaves the phase alone. -/
theorem phaseChangesByTable : Obligations.PhaseChangesByTable := by
  unfold Obligations.PhaseChangesByTable
  intro s t h
  obtain ⟨hi, rfl⟩ | ⟨p, rest, hi, ⟨hr, rfl⟩ | ⟨hr, hv, rfl⟩ | ⟨hr, hv, e, hd, rfl⟩ | ⟨hr, hv, i, hd, hx⟩⟩ :=
    stepBy_cases h
  · simp only [hi, State.idleClock_engine]
  · simp only [hi, hr, if_true, State.takeReset_engine, Engine.reset]
  · simp [hi, hr, hv]
  · simp [hi, hr, hv, hd]
  · obtain ⟨e, r, rfl, he⟩ := exec_effect hx
    simp only [hi, hr, hv, hd, State.answer_engine, he.phase_eq]
    cases i <;> rfl

/-! ## A call of the block -/

section Calls
variable {T : Tables} {s : State} {bytes : List Byte} {a : Alphabet} {rest : List PortIn}

/-- The engine after an `APPEND` whose fold ends in the state `k`. -/
theorem run_append_engine (hT : T.Closed) (hi : s.inbox = present (pseudoAppend a bytes) ++ rest) {t : TableId}
    (hl : lookup (alphabetSize s.engine a) = some t) {k : Nibble} (hk : fold T (alphabetFns s.engine a) bytes = .ok k) :
    ∃ u, (coreOn T).run (bytes.length + 2) s = .next u ∧ u.engine = (s.engine.openFold a t).setAcc (T t k k) := by
  have hsplit : s.inbox = present (.sel a :: pseudoPuts bytes) ++ (present [.app] ++ rest) := by
    simpa [pseudoAppend, pseudoCall, present, ReadCommand.instr] using hi
  obtain ⟨u, hu, hbox, hinv, heng, -⟩ := run_sel_puts hT hsplit
  rw [hl, hk] at heng
  have hread := execOn_app_active (T := T) (s := { u with inbox := rest }) hinv (heng ▸ rfl)
  refine ⟨_, (run_add hu 1).trans (runOn_of_execOn (is := []) rfl hbox hread 0), ?_⟩
  rw [State.answer_engine, heng]
  rfl

/-- `VALID` answers what `is_valid` gives (R128). -/
theorem run_valid (hT : T.Closed) (hi : s.inbox = present (pseudoValid a bytes)) {v : Bool}
    (hv : isValid T (alphabetFns s.engine a) bytes = .ok v) :
    ∃ u, (coreOn T).run (bytes.length + 2) s = .next u ∧ u.rsp = some (if v then 0x0001#16 else 0x0000#16) := by
  obtain ⟨k, hk, rfl⟩ := isValid_eq_ok.mp hv
  obtain ⟨u, hu, -, hrsp, -⟩ := run_call (rest := []) hT (hi.trans (List.append_nil _).symm)
  refine ⟨u, hu, hrsp.trans (congrArg some ?_)⟩
  rw [hk, foldResponse, ReadCommand.data, validByte]
  cases validFlag k <;> rfl

/-- `APP` leaves the engine as the `PUT` of the check symbol does (R128): the table's diagonal is 0, and the extended
sequence folds to 0. -/
theorem run_append_eq_extended (hT : T.Closed) (hi : s.inbox = present (pseudoAppend a bytes) ++ rest) {t : TableId}
    (hl : lookup (alphabetSize s.engine a) = some t) (hD : IsDamm (alphabetSize s.engine a).toNat (T t))
    (hA : RoundTrip (alphabetFns s.engine a)) {c : Byte} (hc : checkSymbol T (alphabetFns s.engine a) bytes = .ok c) :
    ∃ u v, (coreOn T).run (bytes.length + 2) s = .next u ∧
      (coreOn T).run (bytes.length + 2) { s with inbox := present (.sel a :: pseudoPuts (bytes ++ [c])) } = .next v ∧
      v.engine = u.engine := by
  obtain ⟨k, hk, -⟩ := checkSymbol_eq_ok.mp hc
  have hkn := fold_lt hl hD.latin hA hk
  obtain ⟨u, hu, heng⟩ := run_append_engine hT hi hl hk
  obtain ⟨v, hv, -, -, heng', -⟩ := run_sel_puts (rest := []) (bytes := bytes ++ [c]) (a := a) hT
    (s := { s with inbox := present (.sel a :: pseudoPuts (bytes ++ [c])) }) (List.append_nil _).symm
  have hchecked : fold T (alphabetFns s.engine a) (bytes ++ [c]) = .ok 0 :=
    fold_checked hl hD.latin hA hD.zeroDiagonal hc
  have hdiag : T t k k = 0 := (hD.zeroDiagonal k k hkn hkn).mpr rfl
  rw [List.length_append] at hv
  refine ⟨u, v, hu, hv, ?_⟩
  rw [heng, hdiag, heng', hl, hchecked]
  rfl

end Calls

/-- Settles O57: `run_call` over the hardware's tables, and `run_append_eq_extended`. -/
theorem commandsComputePureFunctions : Obligations.CommandsComputePureFunctions := by
  unfold Obligations.CommandsComputePureFunctions
  simp only [core_run_eq_coreOn_run]
  intro s a bytes x rest hi
  obtain ⟨t, ht, hbox, hrsp, htrace⟩ := run_call hardwareTables_closed hi
  refine ⟨t, ht, hbox, hrsp, htrace, fun c u hx hA hc hu => ?_⟩
  subst hx
  obtain ⟨k, hk, -⟩ := checkSymbol_eq_ok.mp hc
  obtain ⟨j, hl⟩ := lookup_of_fold hk
  obtain ⟨t', u', ht', hu', heng⟩ := run_append_eq_extended hardwareTables_closed hi hl
    (tableSize_of_lookup hl ▸ hardwareTables_damm j) hA hc
  cases ht.symm.trans ht'
  cases hu.symm.trans hu'
  exact heng

/-! ## The block detects single errors -/

theorem roundTrip_alphabetFns {e : Engine} {a : Alphabet} (h : a = .user → UserAlphabetWellFormed e) :
    RoundTrip (alphabetFns e a) := by
  by_cases ha : a = .user
  · subst ha
    exact roundTrip_user_iff.mpr (h rfl)
  · exact builtinAlphabetsRoundTrip e a ha

theorem isDamm_of_lookup {T : Tables} (h10 : IsDamm 10 (T .table10)) (h16 : IsDamm 16 (T .table16)) {n : Byte}
    {t : TableId} (hl : lookup n = some t) : IsDamm n.toNat (T t) := by
  obtain ⟨rfl, rfl⟩ | ⟨rfl, rfl⟩ := lookup_eq_some.mp hl
  · exact h10
  · exact h16

/-- Settles O60: `VALID` answers `is_valid` (`run_valid`), which accepts the checked sequence and rejects both kinds of
error in it. -/
theorem engineDetectsSingleErrors : Obligations.EngineDetectsSingleErrors := by
  unfold Obligations.EngineDetectsSingleErrors
  intro T s a t bytes c0 h10 h16 hl hwf hc0
  have hT := Tables.closed_of_damm h10 h16
  have hD : IsDamm (alphabetFns s.engine a).size.toNat (T t) := isDamm_of_lookup h10 h16 hl
  have hA := roundTrip_alphabetFns hwf
  have hchecked := fold_checked hl hD.latin hA hD.zeroDiagonal hc0
  have hrun : ∀ {received : List Byte} {v : Bool}, (bytes ++ [c0]).length = received.length →
      s.inbox = present (pseudoValid a received) → isValid T (alphabetFns s.engine a) received = .ok v →
      ∃ u, (coreOn T).run (bytes.length + 3) s = .next u ∧ u.rsp = some (if v then 0x0001#16 else 0x0000#16) := by
    intro received v hlength hi hv
    have hvalid := run_valid hT hi hv
    rwa [← hlength, List.length_append] at hvalid
  refine ⟨fun hi => ?_, fun pre post b c hsplit hne hc hi => ?_, fun pre post x y hsplit hne hi => ?_⟩
  · exact hrun rfl hi (isValid_eq_true hchecked)
  · refine hrun ?_ hi (isValid_substitution hl hD.latin hA (hsplit ▸ hchecked) hne hc)
    simp only [hsplit, List.length_append, List.length_cons]
  · refine hrun ?_ hi (isValid_transposition hl hD.latin hA hD.antiSymmetric (hsplit ▸ hchecked) hne)
    simp only [hsplit, List.length_append, List.length_cons]

end Sys2Proof.Machine

/-! PROOF. Family 60_exceptions: the response to every presented word in the order of the checks, the recorded error and
its repetition, the ways out of a fault phase, and the independence of several engines (spec/60_exceptions.md). -/

namespace Sys2Proof.Machine

/-! ## The order of the checks and the payloads -/

/-- The response of a command that passes the checks before its own (R48, with the two errors of R142 and R143). -/
def Engine.ownResponse (e : Engine) : Instr → Word
  | .sel a =>
    match lookup (alphabetSize e a) with
    | some x => respond .ok (tableAux x) (alphabetSize e a)
    | none => errorResponse .unsupportedSize a (alphabetSize e a)
  | .put b =>
    match fromSymbol e e.alpha b with
    | some _ => respond .ok 0 0x00#8
    | none => errorResponse .invalidSymbol e.alpha b
  | .fin => respond .ok 0 (zext8 e.acc)
  | .chk => respond .ok 0 (symbolByte e e.alpha e.acc)
  | .val => respond .ok 0 (if e.acc = 0 then 0x01#8 else 0x00#8)
  | .app => respond .ok 0 (symbolByte e e.alpha e.acc)
  | .sts => respond .ok (stsAux e.phase e.alpha) e.errinfo
  | .usz _ => respond .ok 0 0x00#8
  | .ump _ _ => respond .ok 0 0x00#8
  | .lkp n =>
    match lookup n with
    | some x => respond .ok (tableAux x) n
    | none => respond .unsupportedSize 0 n
  | .trd x r c => respond .ok 0 (zext8 (tableEntry x r c))

/-- R19 as a test of the accumulator. -/
theorem validByte_eq (acc : Nibble) : validByte acc = if acc = 0 then 0x01#8 else 0x00#8 := by
  simp only [validByte, validFlag, beq_iff_eq]

theorem wellFormed_trd_iff {t : TableId} {r c : Nibble} :
    (Instr.trd t r c).wellFormed = true ↔ r.toNat < tableSize t ∧ c.toNat < tableSize t := by
  simp only [Instr.wellFormed, Bool.and_eq_true, decide_eq_true_eq]

/-- A legal command gives its own response, a fold command in an open fold only (R112, R146). -/
theorem exec_ownResponse {s : State} {i : Instr} (hs : s.Inv) (hw : i.wellFormed = true)
    (hopen : isFoldCommand i = true → s.engine.phase = .active) :
    ∃ e, exec i s = .next (s.answer e (s.engine.ownResponse i)) := by
  cases i with
  | sel a =>
    cases hl : lookup (alphabetSize s.engine a) with
    | some x => exact ⟨_, by rw [exec_eq_execOn, execOn_sel_supported hl, Engine.ownResponse, hl]⟩
    | none => exact ⟨_, by rw [exec_eq_execOn, execOn_sel_unsupported hl, Engine.ownResponse, hl]; rfl⟩
  | put b =>
    cases hx : fromSymbol s.engine s.engine.alpha b with
    | some x => exact ⟨_, by rw [exec_eq_execOn, execOn_put_accepted hs (hopen rfl) hx, Engine.ownResponse, hx]⟩
    | none => exact ⟨_, by rw [exec_eq_execOn, execOn_put_rejected (hopen rfl) hx, Engine.ownResponse, hx]; rfl⟩
  | fin => exact ⟨_, exec_fin_active (hopen rfl)⟩
  | chk => exact ⟨_, exec_chk_active hs (hopen rfl)⟩
  | val => exact ⟨_, by rw [exec_val_active (hopen rfl), validByte_eq, Engine.ownResponse]⟩
  | app => exact ⟨_, exec_app_active hs (hopen rfl)⟩
  | sts | usz | ump => exact ⟨_, rfl⟩
  | lkp n =>
    cases hl : lookup n with
    | some x => exact ⟨_, by rw [exec_lkp_of_some hl, Engine.ownResponse, hl]⟩
    | none => exact ⟨_, by rw [exec_lkp_of_none hl, Engine.ownResponse, hl]⟩
  | trd x r c =>
    obtain ⟨hr, hc⟩ := wellFormed_trd_iff.mp hw
    exact ⟨_, exec_trd_inside hr hc s⟩

/-- The response to a legal command after the phase gate's two checks (R146). -/
theorem exec_rsp {s t : State} {i : Instr} (hs : s.Inv) (hw : i.wellFormed = true) (h : exec i s = .next t) :
    t.rsp = some (
      if isFoldCommand i = true ∧ s.engine.phase = .idle then 0x3000#16
      else if isFoldCommand i = true ∧ s.engine.phase = .faultSymbol then sticky .invalidSymbol s.engine
      else if isFoldCommand i = true ∧ s.engine.phase = .faultSize then sticky .unsupportedSize s.engine
      else s.engine.ownResponse i) := by
  have hown : (isFoldCommand i = true → s.engine.phase = .active) → t.rsp = some (s.engine.ownResponse i) := by
    intro hopen
    obtain ⟨e, he⟩ := exec_ownResponse hs hw hopen
    cases he.symm.trans h
    rfl
  cases hi : isFoldCommand i with
  | false => simpa using hown (by simp [hi])
  | true =>
    obtain ⟨hidle, hsymbol, hsize⟩ := answersWhileClosed hi s
    cases hp : s.engine.phase with
    | idle => cases (hidle hp).symm.trans h; rfl
    | faultSymbol => cases (hsymbol hp).symm.trans h; rfl
    | faultSize => cases (hsize hp).symm.trans h; rfl
    | active => simpa using hown fun _ => hp

/-- Settles O14: an illegal word has one answer, a legal one that of `exec_rsp`. -/
theorem responsesFollowCheckOrder : Obligations.ResponsesFollowCheckOrder := by
  unfold Obligations.ResponsesFollowCheckOrder
  intro s t p rest hs hi hr hv h
  cases hd : decode p.cmd with
  | error e =>
    cases (step_of_illegal_word hi hr hv hd).symm.trans h
    rfl
  | ok i =>
    have hx : exec i { s with inbox := rest } = .next t := (stepBy_command hi hr hv hd).symm.trans h
    rw [exec_rsp (s := { s with inbox := rest }) hs (decode_eq_ok.mp hd).1 hx]
    cases i <;> rfl

/-! ## The recorded error and its repetition -/

/-- The state just answered what `sticky()` repeats (R145). -/
def State.ShowsRecordedError (t : State) : Prop :=
  ∃ k : ErrorKind, t.engine.phase = k.phase ∧ t.rsp = some (sticky k t.engine)

theorem State.showsRecordedError_raiseError (s : State) (k : ErrorKind) (a : Alphabet) (info : Byte) :
    (s.raiseError k a info).ShowsRecordedError := ⟨k, rfl, rfl⟩

theorem State.showsRecordedError_answerSticky {s : State} {k : ErrorKind} (hp : s.engine.phase = k.phase) :
    (s.answerSticky k).ShowsRecordedError := ⟨k, hp, rfl⟩

/-- A `SEL` that ends in a fault phase has raised the error (R143). -/
theorem exec_sel_showsRecordedError {s t : State} {a : Alphabet} (h : exec (.sel a) s = .next t)
    (hf : t.engine.phase = .faultSymbol ∨ t.engine.phase = .faultSize) : t.ShowsRecordedError := by
  rw [exec_eq_execOn] at h
  cases hl : lookup (alphabetSize s.engine a) with
  | none =>
    cases (execOn_sel_unsupported hl).symm.trans h
    exact s.showsRecordedError_raiseError _ _ _
  | some x =>
    cases (execOn_sel_supported hl).symm.trans h
    simp at hf

/-- A `PUT` that ends in a fault phase has raised the error in an open fold (R142) or repeated an older one (R145). -/
theorem exec_put_showsRecordedError {s t : State} {b : Byte} (h : exec (.put b) s = .next t)
    (hf : t.engine.phase = .faultSymbol ∨ t.engine.phase = .faultSize) : t.ShowsRecordedError := by
  rw [exec_eq_execOn] at h
  cases hp : s.engine.phase with
  | idle =>
    cases (execOn_noFold rfl hp).symm.trans h
    simp [State.answerNoFold, hp] at hf
  | faultSymbol =>
    cases (execOn_recorded (k := .invalidSymbol) rfl hp).symm.trans h
    exact State.showsRecordedError_answerSticky hp
  | faultSize =>
    cases (execOn_recorded (k := .unsupportedSize) rfl hp).symm.trans h
    exact State.showsRecordedError_answerSticky hp
  | active =>
    cases hx : fromSymbol s.engine s.engine.alpha b with
    | none =>
      cases (execOn_put_rejected hp hx).symm.trans h
      exact s.showsRecordedError_raiseError _ _ _
    | some x =>
      obtain ⟨e, r, rfl, he⟩ := execOn_effect h
      simp [he.phase_eq, Engine.phaseAfter, hp, hx] at hf

/-- Settles O37: the closed gate, and that what `SEL` or `PUT` has just answered is what the gate then repeats. -/
theorem stickyRepeatsRaisedResponse : Obligations.StickyRepeatsRaisedResponse := by
  unfold Obligations.StickyRepeatsRaisedResponse
  refine ⟨fun j => answersWhileClosed, fun s t i j r hi h hf hr hj => ?_⟩
  have hshows : t.ShowsRecordedError := by
    obtain ⟨a, rfl⟩ | ⟨b, rfl⟩ := hi
    · exact exec_sel_showsRecordedError h hf
    · exact exec_put_showsRecordedError h hf
  obtain ⟨k, hp, hrsp⟩ := hshows
  obtain rfl : r = sticky k t.engine := Option.some.inj (hr.symm.trans hrsp)
  exact (exec_eq_execOn j t).trans (execOn_recorded hj hp)

/-! ## The ways out of a fault phase -/

/-- While no fold is open only `SEL`, `USZ` and `UMP` change the engine, each to its phase (R148). -/
theorem Effect.writer_while_closed {T : Tables} {i : Instr} {e e' : Engine} (h : Effect T i e e')
    (hp : e.phase ≠ .active) (hne : e' ≠ e) :
    (∃ a, i = .sel a ∧ (e'.phase = .active ∨ e'.phase = .faultSize)) ∨
    (((∃ n, i = .usz n) ∨ ∃ x b, i = .ump x b) ∧ e'.phase = .idle) := by
  cases h with
  | keep => exact absurd rfl hne
  | openFold a => exact .inl ⟨a, rfl, .inl rfl⟩
  | sizeError a => exact .inl ⟨a, rfl, .inr rfl⟩
  | symbolError _ _ ha | symbol _ _ _ _ ha | append _ _ ha => exact absurd ha hp
  | size n => exact .inr ⟨.inl ⟨n, rfl⟩, rfl⟩
  | entry x b => exact .inr ⟨.inr ⟨x, b, rfl⟩, rfl⟩

/-- Settles O38: idle clocks and illegal words keep the engine, a command changes it by `Effect.writer_while_closed`. -/
theorem faultPhaseIsLeftOnlyBy : Obligations.FaultPhaseIsLeftOnlyBy := by
  unfold Obligations.FaultPhaseIsLeftOnlyBy
  intro s t h hf hne
  have hp : s.engine.phase ≠ .active := by
    obtain hf | hf := hf <;> rw [hf] <;> decide
  obtain ⟨-, rfl⟩ | ⟨p, rest, hi, hcase⟩ := stepBy_cases h
  · exact absurd rfl hne
  · refine ⟨p, rest, hi, ?_⟩
    obtain ⟨hr, rfl⟩ | ⟨-, -, rfl⟩ | ⟨-, -, e, -, rfl⟩ | ⟨hr, hv, i, hd, hx⟩ := hcase
    · exact .inl ⟨hr, rfl⟩
    · exact absurd rfl hne
    · exact absurd rfl hne
    · obtain ⟨e, r, rfl, he⟩ := exec_effect hx
      exact .inr ⟨hr, hv, i, hd, he.writer_while_closed hp hne⟩

/-! ## Several engines -/

/-- A step of engine `k` replaces engine `k` (R152). -/
theorem System.stepEngine_eq_next {n : Nat} {σ τ : System n} {k : Fin n} :
    σ.stepEngine k = .next τ ↔ ∃ s, step σ[k] = .next s ∧ τ = σ.set k s := by
  unfold System.stepEngine
  cases step σ[k] with
  | next s => simp [eq_comm]
  | fault f => simp
  | refused r => simp

/-- Settles O50: each step reads and replaces its own engine, and replacements at different places commute. -/
theorem enginesAreIndependent : Obligations.EnginesAreIndependent := by
  unfold Obligations.EnginesAreIndependent
  intro n σ σ₁ σ₂ k j hkj hk hj
  have hne : (k : Nat) ≠ j := Fin.val_ne_of_ne hkj
  obtain ⟨s, hs, rfl⟩ := System.stepEngine_eq_next.mp hk
  obtain ⟨u, hu, rfl⟩ := System.stepEngine_eq_next.mp hj
  have hother : (σ.set k s)[j] = σ[j] := Vector.getElem_set_ne k.isLt j.isLt hne
  have hback : (σ.set j u)[k] = σ[k] := Vector.getElem_set_ne j.isLt k.isLt hne.symm
  rw [hother] at hu
  refine ⟨hother, σ.set j u, System.stepEngine_eq_next.mpr ⟨u, hu, rfl⟩,
    System.stepEngine_eq_next.mpr ⟨s, hback ▸ hs, ?_⟩⟩
  exact Vector.set_comm s u hne

end Sys2Proof.Machine

/-! PROOF. Family 70_reset_and_hazards: the reset event, what a `SEL` keeps of the state before it, and the fold that a
write to the user alphabet closes (spec/70_reset_and_hazards.md). -/

namespace Sys2Proof.Machine

/-! ## The reset event -/

/-- A reset wins over whatever else is driven on its clock (R160). -/
theorem step_of_reset_port {s : State} {p : PortIn} {rest : List PortIn} (hi : s.inbox = p :: rest)
    (hr : p.rst = true) : step s = .next (State.takeReset { s with inbox := rest }) := by
  simp [step, stepBy, hi, clockBy, hr]

/-- Settles O2: the clock of a reset is `takeReset`, which touches the engine and the response port only. -/
theorem resetEventRestoresResetState : Obligations.ResetEventRestoresResetState := by
  unfold Obligations.ResetEventRestoresResetState
  exact fun _ _ _ => step_of_reset_port

/-! ## `SEL` after any past -/

/-- The size of a built-in alphabet is a constant (R81). -/
theorem alphabetSize_of_builtin {a : Alphabet} (ha : a ≠ .user) (e e' : Engine) :
    alphabetSize e a = alphabetSize e' a := by
  cases a with
  | digit | upperHex | lowerHex => rfl
  | user => exact absurd rfl ha

/-- `SEL` reads the alphabet's size and nothing else of the engine, and keeps `USIZE` and `UMAP` only (R113, R161). -/
theorem exec_sel_of_size_eq {a : Alphabet} {s s' t t' : State}
    (hsize : alphabetSize s'.engine a = alphabetSize s.engine a)
    (h : exec (.sel a) s = .next t) (h' : exec (.sel a) s' = .next t') :
    t.rsp = t'.rsp ∧ t'.engine = { t.engine with usize := s'.engine.usize, um := s'.engine.um } := by
  rw [exec_eq_execOn] at h h'
  cases hl : lookup (alphabetSize s.engine a) with
  | some x =>
    cases (execOn_sel_supported hl).symm.trans h
    cases (execOn_sel_supported (hsize ▸ hl)).symm.trans h'
    exact ⟨by simp only [State.answer_rsp, hsize], rfl⟩
  | none =>
    cases (execOn_sel_unsupported hl).symm.trans h
    cases (execOn_sel_unsupported (hsize ▸ hl)).symm.trans h'
    simp only [State.raiseUnsupportedSize, State.raiseError_rsp, State.raiseError_engine, hsize, true_and]
    rfl

/-- Settles O42: the past reaches `SEL` through the alphabet's size alone, which is that of `USIZE` or a constant. With
equal user alphabets the two engines agree in `USIZE` and `UMAP` as well, since `SEL` keeps both. -/
theorem selForgetsThePast : Obligations.SelForgetsThePast := by
  unfold Obligations.SelForgetsThePast
  intro a s s' t t' h h'
  refine ⟨fun hu hm => ?_, fun ha => exec_sel_of_size_eq (alphabetSize_of_builtin ha _ _) h h'⟩
  obtain ⟨hrsp, heq⟩ := exec_sel_of_size_eq (alphabetSize_congr a hu.symm) h h'
  obtain ⟨-, hkeep⟩ := exec_sel_of_size_eq rfl h h
  rw [← hu, ← hm, ← hkeep] at heq
  exact ⟨heq.symm, hrsp⟩

/-! ## A write to the user alphabet -/

/-- `USZ` and `UMP` end in `IDLE`, from any phase (R110, R165). -/
theorem exec_alphabetWrite_phase {s t : State} {i : Instr} (h : exec i s = .next t)
    (hi : (∃ n, i = .usz n) ∨ ∃ x c, i = .ump x c) : t.engine.phase = .idle := by
  obtain ⟨e, r, rfl, he⟩ := exec_effect h
  rw [State.answer_engine, he.phase_eq]
  obtain ⟨n, rfl⟩ | ⟨x, c, rfl⟩ := hi <;> rfl

/-- Settles O43: the write closes the fold, and the closed gate answers. -/
theorem alphabetWriteClosesFold : Obligations.AlphabetWriteClosesFold := by
  unfold Obligations.AlphabetWriteClosesFold
  intro s t i j h hi hj
  obtain ⟨hidle, -, -⟩ := answersWhileClosed hj t
  exact hidle (exec_alphabetWrite_phase h hi)

end Sys2Proof.Machine
